-- ==== Sys2Proof/Word.lean ====
section
/-! DEFINITION. The word types of the core: bytes, 16-bit words and register names. -/

namespace Sys2Proof

/-- An 8-bit cell: a general register, a timer, a memory byte (R7, R20, R60). -/
abbrev Byte := BitVec 8

/-- A 16-bit word: the opcode, I, pc, a stack entry (R7). -/
abbrev Word := BitVec 16

/-- The index of a general register, V0 to VF (R20). -/
abbrev Reg := Fin 16

end Sys2Proof
end

