-- ==== Sys2Proof/Syntax.lean ====
section
/-! DEFINITION. The instructions: one constructor for each row of the opcode table (R83). -/

namespace Sys2Proof

/-- The 34 instructions of R83. A register operand is a `Reg`; an immediate `n`, `kk` or `nnn` is an unsigned number
(R81, R10), and `Instr.wf` (WellFormed.lean) says that it fits its field. The bits that no rule reads (R91) are no part
of an instruction. Each docstring gives the row's pattern and its rule. -/
inductive Instr where
  /-- 00E0, R120 -/
  | cls
  /-- 00EE, R130 -/
  | ret
  /-- 1nnn, R131 -/
  | jp (nnn : Nat)
  /-- 2nnn, R132 -/
  | call (nnn : Nat)
  /-- 3xkk, R133 -/
  | seImm (x : Reg) (kk : Nat)
  /-- 4xkk, R134 -/
  | sneImm (x : Reg) (kk : Nat)
  /-- 5xy0, R135 -/
  | seReg (x y : Reg)
  /-- 6xkk, R140 -/
  | ldImm (x : Reg) (kk : Nat)
  /-- 7xkk, R141 -/
  | addImm (x : Reg) (kk : Nat)
  /-- 8xy0, R142 -/
  | ldReg (x y : Reg)
  /-- 8xy1, R143 -/
  | orReg (x y : Reg)
  /-- 8xy2, R144 -/
  | andReg (x y : Reg)
  /-- 8xy3, R145 -/
  | xorReg (x y : Reg)
  /-- 8xy4, R146 -/
  | addReg (x y : Reg)
  /-- 8xy5, R147 -/
  | subReg (x y : Reg)
  /-- 8xy6, R148 -/
  | shr (x : Reg)
  /-- 8xy7, R149 -/
  | subnReg (x y : Reg)
  /-- 8xyE, R150 -/
  | shl (x : Reg)
  /-- 9xy0, R136 -/
  | sneReg (x y : Reg)
  /-- Annn, R160 -/
  | ldI (nnn : Nat)
  /-- Bnnn, R137 -/
  | jpV0 (nnn : Nat)
  /-- Cxkk, R151 -/
  | rnd (x : Reg) (kk : Nat)
  /-- Dxyn, R121 -/
  | drw (x y : Reg) (n : Nat)
  /-- Ex9E, R171 -/
  | skp (x : Reg)
  /-- ExA1, R172 -/
  | sknp (x : Reg)
  /-- Fx07, R173 -/
  | ldVxDt (x : Reg)
  /-- Fx0A, R174 -/
  | ldVxKey (x : Reg)
  /-- Fx15, R175 -/
  | ldDtVx (x : Reg)
  /-- Fx18, R176 -/
  | ldStVx (x : Reg)
  /-- Fx1E, R161 -/
  | addI (x : Reg)
  /-- Fx29, R162 -/
  | ldFont (x : Reg)
  /-- Fx33, R163 -/
  | ldBcd (x : Reg)
  /-- Fx55, R164 -/
  | storeRegs (x : Reg)
  /-- Fx65, R165 -/
  | loadRegs (x : Reg)
deriving DecidableEq, Repr

end Sys2Proof
end

