-- ==== Sys2Proof/WellFormed.lean ====
section
/-! DEFINITION. Which instructions have an encoding: every immediate fits its field (R81). -/

namespace Sys2Proof

/-- `nnn` is a 12-bit field (R81). -/
def fitsAddress (nnn : Nat) : Bool := decide (nnn < 4096)

/-- `kk` is an 8-bit field (R81). -/
def fitsByte (kk : Nat) : Bool := decide (kk < 256)

/-- `n` is a 4-bit field (R81). -/
def fitsNibble (n : Nat) : Bool := decide (n < 16)

/-- Every immediate of the instruction fits its field. A register index is below 16 by its type. -/
def Instr.wf : Instr → Bool
  | .jp nnn | .call nnn | .ldI nnn | .jpV0 nnn => fitsAddress nnn
  | .seImm _ kk | .sneImm _ kk | .ldImm _ kk | .addImm _ kk | .rnd _ kk => fitsByte kk
  | .drw _ _ n => fitsNibble n
  | .cls | .ret | .seReg _ _ | .sneReg _ _ | .ldReg _ _ | .orReg _ _ | .andReg _ _ | .xorReg _ _ | .addReg _ _
  | .subReg _ _ | .subnReg _ _ | .shr _ | .shl _ | .skp _ | .sknp _ | .ldVxDt _ | .ldVxKey _ | .ldDtVx _ | .ldStVx _
  | .addI _ | .ldFont _ | .ldBcd _ | .storeRegs _ | .loadRegs _ => true

end Sys2Proof
end

