-- ==== Sys2Proof/Decode.lean ====
section
/-! DEFINITION. Decoding: the two-stage dispatch of R84 to R90 on the opcode's fields, total on any bytes and rejecting
by name; the encoder; and the mask and match columns of R83 as data, which the decoder's claims are stated against. -/

namespace Sys2Proof

/-! ### Fields (R9, R81) -/

/-- `v[hi:lo]` of R9 with `width = hi - lo + 1`: the unsigned value of those bits. -/
def Word.bitsAt (w : Word) (lo width : Nat) : Nat := w.toNat / 2 ^ lo % 2 ^ width

/-- The class, `op[15:12]`: the key of stage 1 (R81, R84). -/
def Word.cls (w : Word) : Nat := w.bitsAt 12 4

/-- The register index `x`, `op[11:8]` (R81). -/
def Word.x (w : Word) : Reg := Fin.ofNat 16 (w.bitsAt 8 4)

/-- The register index `y`, `op[7:4]` (R81). -/
def Word.y (w : Word) : Reg := Fin.ofNat 16 (w.bitsAt 4 4)

/-- The nibble `n`, `op[3:0]`: an immediate, and the stage-2 key of classes 0, 8 and E (R81, R84). -/
def Word.n (w : Word) : Nat := w.bitsAt 0 4

/-- The byte `kk`, `op[7:0]`: an immediate, and the stage-2 key of class F (R81, R84). -/
def Word.kk (w : Word) : Nat := w.bitsAt 0 8

/-- The address `nnn`, `op[11:0]` (R81). -/
def Word.nnn (w : Word) : Nat := w.bitsAt 0 12

/-- A word from its two bytes, the byte at the lower address first: big-endian (R64). -/
def Word.ofBytes (hi lo : Byte) : Word := BitVec.ofNat 16 (hi.toNat * 256 + lo.toNat)

/-- `op[15:8]`, the byte at the lower address (R64). -/
def Word.hiByte (w : Word) : Byte := BitVec.ofNat 8 (w.bitsAt 8 8)

/-- `op[7:0]`, the byte at the higher address (R64). -/
def Word.loByte (w : Word) : Byte := BitVec.ofNat 8 (w.bitsAt 0 8)

/-! ### The decoder -/

/-- Why bytes are no instruction. The four misses are R90's decode misses, which the cycle passes over; they are no
faults (R202). -/
inductive DecodeMiss where
  /-- Fewer than two bytes were given (the fetch never gives so few). -/
  | truncated
  /-- Class 0 with a bottom nibble other than 0 and E (R86). -/
  | class0 (key : Nat)
  /-- Class 8 with a bottom nibble that names no operation (R87). -/
  | class8 (key : Nat)
  /-- Class E with a bottom nibble other than 1 and E (R88). -/
  | classE (key : Nat)
  /-- Class F with a bottom byte that names no operation (R89). -/
  | classF (key : Nat)
deriving DecidableEq, Repr

/-- Stage 2 for class 0 (R86). -/
def decodeClass0 (w : Word) : Except DecodeMiss Instr :=
  match w.n with
  | 0x0 => .ok .cls
  | 0xE => .ok .ret
  | k => .error (.class0 k)

/-- Stage 2 for class 8 (R87). -/
def decodeClass8 (w : Word) : Except DecodeMiss Instr :=
  match w.n with
  | 0x0 => .ok (.ldReg w.x w.y)
  | 0x1 => .ok (.orReg w.x w.y)
  | 0x2 => .ok (.andReg w.x w.y)
  | 0x3 => .ok (.xorReg w.x w.y)
  | 0x4 => .ok (.addReg w.x w.y)
  | 0x5 => .ok (.subReg w.x w.y)
  | 0x6 => .ok (.shr w.x)
  | 0x7 => .ok (.subnReg w.x w.y)
  | 0xE => .ok (.shl w.x)
  | k => .error (.class8 k)

/-- Stage 2 for class E (R88). -/
def decodeClassE (w : Word) : Except DecodeMiss Instr :=
  match w.n with
  | 0xE => .ok (.skp w.x)
  | 0x1 => .ok (.sknp w.x)
  | k => .error (.classE k)

/-- Stage 2 for class F (R89). -/
def decodeClassF (w : Word) : Except DecodeMiss Instr :=
  match w.kk with
  | 0x07 => .ok (.ldVxDt w.x)
  | 0x0A => .ok (.ldVxKey w.x)
  | 0x15 => .ok (.ldDtVx w.x)
  | 0x18 => .ok (.ldStVx w.x)
  | 0x1E => .ok (.addI w.x)
  | 0x29 => .ok (.ldFont w.x)
  | 0x33 => .ok (.ldBcd w.x)
  | 0x55 => .ok (.storeRegs w.x)
  | 0x65 => .ok (.loadRegs w.x)
  | k => .error (.classF k)

/-- The dispatch of one opcode: stage 1 on the class, the direct classes as R85 lists them (R84). -/
def decodeWord (w : Word) : Except DecodeMiss Instr :=
  match w.cls with
  | 0x0 => decodeClass0 w
  | 0x1 => .ok (.jp w.nnn)
  | 0x2 => .ok (.call w.nnn)
  | 0x3 => .ok (.seImm w.x w.kk)
  | 0x4 => .ok (.sneImm w.x w.kk)
  | 0x5 => .ok (.seReg w.x w.y)
  | 0x6 => .ok (.ldImm w.x w.kk)
  | 0x7 => .ok (.addImm w.x w.kk)
  | 0x8 => decodeClass8 w
  | 0x9 => .ok (.sneReg w.x w.y)
  | 0xA => .ok (.ldI w.nnn)
  | 0xB => .ok (.jpV0 w.nnn)
  | 0xC => .ok (.rnd w.x w.kk)
  | 0xD => .ok (.drw w.x w.y w.n)
  | 0xE => decodeClassE w
  | _ => decodeClassF w

/-- Decoding from a list of bytes, lowest address first: every instruction is two bytes (R80, R64). Answers the
instruction and the bytes after it. -/
def decode : List Byte → Except DecodeMiss (Instr × List Byte)
  | hi :: lo :: rest =>
    match decodeWord (Word.ofBytes hi lo) with
    | .ok i => .ok (i, rest)
    | .error m => .error m
  | _ => .error .truncated

/-! ### The encoder -/

/-- `cccc nnnn nnnn nnnn` (R82). -/
def formatA (cls nnn : Nat) : Word := BitVec.ofNat 16 (cls * 4096 + nnn)

/-- `cccc xxxx kkkk kkkk` (R82). -/
def formatXK (cls : Nat) (x : Reg) (kk : Nat) : Word := BitVec.ofNat 16 (cls * 4096 + x.val * 256 + kk)

/-- `cccc xxxx yyyy ffff` (R82). -/
def formatXY (cls : Nat) (x y : Reg) (f : Nat) : Word :=
  BitVec.ofNat 16 (cls * 4096 + x.val * 256 + y.val * 16 + f)

/-- The word an assembler emits for an instruction: its pattern in R83, with the bits of R91 as the pattern has them and
y = 0 for 8xy6 and 8xyE (R93). DEDUCED for `op[7:4]` of Ex9E and ExA1: the pattern's 9 and A, log 24. -/
def encode : Instr → Word
  | .cls => 0x00E0
  | .ret => 0x00EE
  | .jp nnn => formatA 0x1 nnn
  | .call nnn => formatA 0x2 nnn
  | .seImm x kk => formatXK 0x3 x kk
  | .sneImm x kk => formatXK 0x4 x kk
  | .seReg x y => formatXY 0x5 x y 0x0
  | .ldImm x kk => formatXK 0x6 x kk
  | .addImm x kk => formatXK 0x7 x kk
  | .ldReg x y => formatXY 0x8 x y 0x0
  | .orReg x y => formatXY 0x8 x y 0x1
  | .andReg x y => formatXY 0x8 x y 0x2
  | .xorReg x y => formatXY 0x8 x y 0x3
  | .addReg x y => formatXY 0x8 x y 0x4
  | .subReg x y => formatXY 0x8 x y 0x5
  | .shr x => formatXY 0x8 x 0 0x6
  | .subnReg x y => formatXY 0x8 x y 0x7
  | .shl x => formatXY 0x8 x 0 0xE
  | .sneReg x y => formatXY 0x9 x y 0x0
  | .ldI nnn => formatA 0xA nnn
  | .jpV0 nnn => formatA 0xB nnn
  | .rnd x kk => formatXK 0xC x kk
  | .drw x y n => formatXY 0xD x y n
  | .skp x => formatXK 0xE x 0x9E
  | .sknp x => formatXK 0xE x 0xA1
  | .ldVxDt x => formatXK 0xF x 0x07
  | .ldVxKey x => formatXK 0xF x 0x0A
  | .ldDtVx x => formatXK 0xF x 0x15
  | .ldStVx x => formatXK 0xF x 0x18
  | .addI x => formatXK 0xF x 0x1E
  | .ldFont x => formatXK 0xF x 0x29
  | .ldBcd x => formatXK 0xF x 0x33
  | .storeRegs x => formatXK 0xF x 0x55
  | .loadRegs x => formatXK 0xF x 0x65

/-- The two bytes of an instruction as memory holds them (R64). -/
def encodeBytes (i : Instr) : List Byte := [(encode i).hiByte, (encode i).loByte]

/-! ### The mask and match columns of R83 -/

/-- One row of R83: an opcode `op` selects it if `op & mask == pattern`. -/
structure OpcodeRow where
  mask : Word
  pattern : Word
deriving DecidableEq, Repr

/-- The row of an instruction, from R83's mask and match columns. -/
def Instr.row : Instr → OpcodeRow
  | .cls => ⟨0xF00F, 0x0000⟩
  | .ret => ⟨0xF00F, 0x000E⟩
  | .jp _ => ⟨0xF000, 0x1000⟩
  | .call _ => ⟨0xF000, 0x2000⟩
  | .seImm _ _ => ⟨0xF000, 0x3000⟩
  | .sneImm _ _ => ⟨0xF000, 0x4000⟩
  | .seReg _ _ => ⟨0xF000, 0x5000⟩
  | .ldImm _ _ => ⟨0xF000, 0x6000⟩
  | .addImm _ _ => ⟨0xF000, 0x7000⟩
  | .ldReg _ _ => ⟨0xF00F, 0x8000⟩
  | .orReg _ _ => ⟨0xF00F, 0x8001⟩
  | .andReg _ _ => ⟨0xF00F, 0x8002⟩
  | .xorReg _ _ => ⟨0xF00F, 0x8003⟩
  | .addReg _ _ => ⟨0xF00F, 0x8004⟩
  | .subReg _ _ => ⟨0xF00F, 0x8005⟩
  | .shr _ => ⟨0xF00F, 0x8006⟩
  | .subnReg _ _ => ⟨0xF00F, 0x8007⟩
  | .shl _ => ⟨0xF00F, 0x800E⟩
  | .sneReg _ _ => ⟨0xF000, 0x9000⟩
  | .ldI _ => ⟨0xF000, 0xA000⟩
  | .jpV0 _ => ⟨0xF000, 0xB000⟩
  | .rnd _ _ => ⟨0xF000, 0xC000⟩
  | .drw _ _ _ => ⟨0xF000, 0xD000⟩
  | .skp _ => ⟨0xF00F, 0xE00E⟩
  | .sknp _ => ⟨0xF00F, 0xE001⟩
  | .ldVxDt _ => ⟨0xF0FF, 0xF007⟩
  | .ldVxKey _ => ⟨0xF0FF, 0xF00A⟩
  | .ldDtVx _ => ⟨0xF0FF, 0xF015⟩
  | .ldStVx _ => ⟨0xF0FF, 0xF018⟩
  | .addI _ => ⟨0xF0FF, 0xF01E⟩
  | .ldFont _ => ⟨0xF0FF, 0xF029⟩
  | .ldBcd _ => ⟨0xF0FF, 0xF033⟩
  | .storeRegs _ => ⟨0xF0FF, 0xF055⟩
  | .loadRegs _ => ⟨0xF0FF, 0xF065⟩

/-- One instruction of each row, in R83's order: its rows are the table. -/
def opcodeSamples : List Instr :=
  [.cls, .ret, .jp 0, .call 0, .seImm 0 0, .sneImm 0 0, .seReg 0 0, .ldImm 0 0, .addImm 0 0, .ldReg 0 0, .orReg 0 0] ++
  [.andReg 0 0, .xorReg 0 0, .addReg 0 0, .subReg 0 0, .shr 0, .subnReg 0 0, .shl 0, .sneReg 0 0, .ldI 0, .jpV0 0] ++
  [.rnd 0 0, .drw 0 0 0, .skp 0, .sknp 0, .ldVxDt 0, .ldVxKey 0, .ldDtVx 0, .ldStVx 0, .addI 0, .ldFont 0] ++
  [.ldBcd 0, .storeRegs 0, .loadRegs 0]

/-- The 34 rows of R83. -/
def opcodeTable : List OpcodeRow := opcodeSamples.map Instr.row

/-- The bits of an opcode that an instruction's selection or effect reads: all but those of R91. -/
def Instr.readMask : Instr → Word
  | .cls | .ret => 0xF00F
  | .seReg _ _ | .sneReg _ _ => 0xFFF0
  | .shr _ | .shl _ | .skp _ | .sknp _ => 0xFF0F
  | .jp _ | .call _ | .seImm _ _ | .sneImm _ _ | .ldImm _ _ | .addImm _ _ | .ldReg _ _ | .orReg _ _ | .andReg _ _
  | .xorReg _ _ | .addReg _ _ | .subReg _ _ | .subnReg _ _ | .ldI _ | .jpV0 _ | .rnd _ _ | .drw _ _ _ | .ldVxDt _
  | .ldVxKey _ | .ldDtVx _ | .ldStVx _ | .addI _ | .ldFont _ | .ldBcd _ | .storeRegs _ | .loadRegs _ => 0xFFFF

/-! ### The host's reading of a table word -/

/-- The word of a table row: bit 0 is the least significant bit of the one 16-bit word, and bits at or above `nbits`
are 0. -/
def Word.ofTable (nbits w : Nat) : Word := BitVec.ofNat 16 (w % 2 ^ nbits)

/-- The instruction the decoder reads from the bytes of a table word, laid out big-endian (R64). -/
def decodeTableWord (nbits w : Nat) : Option Instr :=
  match decode [(Word.ofTable nbits w).hiByte, (Word.ofTable nbits w).loByte] with
  | .ok (i, _) => some i
  | .error _ => none

end Sys2Proof
end

