-- ==== Sys2Proof/Config.lean ====
section
/-! DEFINITION. What is fixed for this hardware by R7, the types of its named parameters, and its one free value. -/

namespace Sys2Proof.Config

/-- `MEM_SIZE`: addresses 0x000 to 0xFFF (R7, R60). -/
@[simp] abbrev memSize : Nat := 4096

/-- `PROG_BASE`: the reset pc and the load base (R7). -/
@[simp] abbrev progBase : Nat := 0x200

/-- `FONT_BASE` (R7). -/
@[simp] abbrev fontBase : Nat := 0x050

/-- `FONT_GLYPH_BYTES`: the bytes of one glyph (R7). -/
@[simp] abbrev glyphBytes : Nat := 5

/-- `FB_W`: the columns of the framebuffer (R7, R30). -/
@[simp] abbrev fbWidth : Nat := 64

/-- `FB_H`: the rows of the framebuffer (R7, R30). -/
@[simp] abbrev fbHeight : Nat := 32

/-- `MAX_ROM`: the longest image `load` takes, 3584 bytes (R7). -/
@[simp] abbrev maxRom : Nat := memSize - progBase

/-- The values of the parameter `LS_RANGE` (R166). The value of this hardware is `Sys2Proof.Machine.lsRange`. -/
inductive LsRange where
  | exclusive
  | inclusive
deriving DecidableEq, Repr

/-- The values of the parameter `DRAW_EDGE` (R122). The value of this hardware is `Sys2Proof.Machine.drawEdge`. -/
inductive DrawEdge where
  | fault
  | clip
  | wrap
deriving DecidableEq, Repr

/-- DESIGN CHOICE, log 3. The byte that draw number `draw` of the random source `source` returns (R152): a free value, one
for each draw of each source, with no law between draws or between sources (R35, R211). It has no body, so nothing can be
proved of its values. -/
opaque freeDraw (source draw : Nat) : Byte

end Sys2Proof.Config
end

