-- ==== Sys2Proof/Machine/Params.lean ====
section
/-! DEFINITION. The values this hardware gives the spec's named parameters (R7): the font, `LS_RANGE`, `DRAW_EDGE`. -/

namespace Sys2Proof.Machine

open Sys2Proof.Config

/-- `LS_RANGE` of this hardware: Fx55 and Fx65 move V0 to V(x-1) (R166; the spec's decision D3), log 6. -/
def lsRange : LsRange := .exclusive

/-- `DRAW_EDGE` of this hardware: a set sprite bit outside the grid faults (R122; the spec's decision D5), log 7. -/
def drawEdge : DrawEdge := .fault

/-- `FONT_TABLE`: the 80 font bytes at 0x050 to 0x09F with the values of R33. PRESUMED, log 4: the spec takes them from
general knowledge (D25). -/
def fontTable : List Byte :=
  [0xF0, 0x90, 0x90, 0x90, 0xF0] ++ [0x20, 0x60, 0x20, 0x20, 0x70] ++
  [0xF0, 0x10, 0xF0, 0x80, 0xF0] ++ [0xF0, 0x10, 0xF0, 0x10, 0xF0] ++
  [0x90, 0x90, 0xF0, 0x10, 0x10] ++ [0xF0, 0x80, 0xF0, 0x10, 0xF0] ++
  [0xF0, 0x80, 0xF0, 0x90, 0xF0] ++ [0xF0, 0x10, 0x20, 0x40, 0x40] ++
  [0xF0, 0x90, 0xF0, 0x90, 0xF0] ++ [0xF0, 0x90, 0xF0, 0x10, 0xF0] ++
  [0xF0, 0x90, 0xF0, 0x90, 0x90] ++ [0xE0, 0x90, 0xE0, 0x90, 0xE0] ++
  [0xF0, 0x80, 0x80, 0x80, 0xF0] ++ [0xE0, 0x90, 0x90, 0x90, 0xE0] ++
  [0xF0, 0x80, 0xF0, 0x80, 0xF0] ++ [0xF0, 0x80, 0xF0, 0x80, 0x80]

end Sys2Proof.Machine
end

