-- ==== Sys2Proof/Machine/State.lean ====
section
/-! DEFINITION. The state of the core as plain data (R39), the reasons a cycle stops, and the state after construct(). -/

namespace Sys2Proof.Machine

/-- The kind of memory access that a bound violation names (R200). -/
inductive AccessKind where
  | fetch
  | read
  | write
deriving DecidableEq, Repr

/-- The faults of a cycle (R200): each is a code of R200 with the info R200 records. The instruction (or fetch) that
raises one TAKES it: the next state records it in the fault status (R201). `step` answers one as its outcome only on a
machine that is faulted already: the recorded fault, returned by a cycle that does nothing (R106). Safe: the machine
stops where the original went on unchecked (D7, D9, D11). -/
inductive Fault where
  /-- Code 1. Raised by 2nnn with SP = 16. Safe. -/
  | stackOverflow
  /-- Code 2. Raised by 00EE with SP = 0. Safe. -/
  | stackUnderflow
  /-- Code 3. Raised by the fetch, Dxyn, Fx33, Fx55 and Fx65 for an address of 4096 or more. Safe. -/
  | memoryOutOfBounds (kind : AccessKind) (addr : Nat)
  /-- Code 4. Raised by Dxyn for a set sprite bit at px ≥ 64 or py ≥ 32. Safe. -/
  | framebufferOutOfBounds (px py : Nat)
  /-- Code 5. Raised by Ex9E and ExA1 for a key index above 15. Safe. -/
  | keypadIndexOutOfRange (index : Nat)
deriving DecidableEq, Repr

/-- Why the model gives an instruction no meaning. -/
inductive Refusal where
  /-- An arm of `exec` without a meaning yet; no arm is. Safe: the run stops. -/
  | notModelled (mnemonic : String)
deriving DecidableEq, Repr

/-- `Faulted(code, info, fpc, fop)` of R36: the fault with its info, the address the faulting cycle fetched from, and the
opcode it fetched, `none` for a fetch fault. -/
structure FaultRecord where
  fault : Fault
  fpc : Word
  fop : Option Word
deriving DecidableEq, Repr

/-- The 4096 bytes of memory (R32, R60), held as the list of the cells that differ from the reset contents, in the
canonical form of `Memory.wf` (Ops.lean), log 27. -/
structure Memory where
  cells : List Host.Cell
deriving DecidableEq, Repr

/-- Every piece of state of R39, and the model's own `source` and `draws`, which stand for the random source (R35). -/
structure State where
  /-- V0 to VF; VF is also the flag output (R20, R21). -/
  V : Vector Byte 16
  /-- The index register (R25). -/
  I : Word
  /-- The program counter (R23). -/
  pc : Word
  /-- The stack pointer SP, 0 to 16: the entries in use (R26). -/
  sp : Fin 17
  /-- The call stack (R26). -/
  stack : Vector Word 16
  /-- The delay timer DT (R28). -/
  dt : Byte
  /-- The sound timer ST (R29). -/
  st : Byte
  /-- Memory (R32). -/
  mem : Memory
  /-- The framebuffer FB: row py, and in it bit px, is cell (px, py) (R30); log 20. -/
  fb : Vector (BitVec 64) 32
  /-- The keypad, host-owned input: `true` is pressed (R31). -/
  key : Vector Bool 16
  /-- The opcode register (R34). -/
  op : Word
  /-- The fault status (R36). -/
  fault : Option FaultRecord
  /-- DESIGN CHOICE, log 3: the model's own name for the random source this machine owns, "one instance per Machine"
  (R35, R211): two machines have two sources, and no transaction changes it. -/
  source : Nat
  /-- DESIGN CHOICE, log 3: the model's own count of the random draws taken; the next draw is
  `Config.freeDraw source draws`. -/
  draws : Nat
deriving DecidableEq, Repr

/-- The state after construct() (R230, R39). I, FB, key, op and fault have the values of the spec's decision D15, log 5;
`source` and `draws` are a DESIGN CHOICE, log 3. -/
def State.reset : State where
  V := Vector.replicate 16 0
  I := 0
  pc := BitVec.ofNat 16 Config.progBase
  sp := 0
  stack := Vector.replicate 16 0
  dt := 0
  st := 0
  mem := ⟨[]⟩
  fb := Vector.replicate 32 0
  key := Vector.replicate 16 false
  op := 0
  fault := none
  source := 0
  draws := 0

end Sys2Proof.Machine
end

