-- ==== Sys2Proof/Machine/Ops.lean ====
section
/-! DEFINITION. The named operations over the state: memory, registers, stack, timers, framebuffer, keypad, random
source, and taking a fault. -/

namespace Sys2Proof.Machine

open Sys2Proof.Config

/-! ### Memory (R60 to R62) -/

/-- What an address nothing has written reads as: the reset contents, the font at 0x050 to 0x09F and 0 elsewhere (R39). -/
def resetByte (a : Nat) : Byte :=
  if fontBase ≤ a then fontTable.getD (a - fontBase) 0 else 0

/-- The byte the cells give an address. -/
def readCells (a : Nat) : List Host.Cell → Byte
  | [] => resetByte a
  | (c, d) :: rest => if c = a then d else readCells a rest

/-- The cells after a byte is written: the list stays sorted, and a byte equal to the reset contents is not listed. -/
def writeCells (a : Nat) (b : Byte) : List Host.Cell → List Host.Cell
  | [] => if b = resetByte a then [] else [(a, b)]
  | (c, d) :: rest =>
    if c < a then (c, d) :: writeCells a b rest
    else if c = a then (if b = resetByte a then rest else (a, b) :: rest)
    else (if b = resetByte a then (c, d) :: rest else (a, b) :: (c, d) :: rest)

/-- Addresses from `lo` on, strictly rising and below 4096, and no byte equal to the reset contents. -/
def cellsWf (lo : Nat) : List Host.Cell → Bool
  | [] => true
  | (a, b) :: rest => decide (lo ≤ a) && decide (a < memSize) && decide (b ≠ resetByte a) && cellsWf (a + 1) rest

/-- The canonical form of memory. -/
def Memory.wf (m : Memory) : Bool := cellsWf 0 m.cells

/-- `mem[a]`, without the bound check. -/
def Memory.read (m : Memory) (a : Nat) : Byte := readCells a m.cells

/-- `mem[a] <- b`, without the bound check. -/
def Memory.write (m : Memory) (a : Nat) (b : Byte) : Memory := ⟨writeCells a b m.cells⟩

/-- The bytes written at `a`, `a + 1`, and so on. -/
def Memory.writeList (m : Memory) (a : Nat) : List Byte → Memory
  | [] => m
  | b :: bs => (m.write a b).writeList (a + 1) bs

/-- `MemRead(a, 1)`: the address is not wrapped, and 4096 or more raises (R62). -/
def State.memRead (s : State) (a : Nat) : Except Fault Byte :=
  if a < memSize then .ok (s.mem.read a) else .error (.memoryOutOfBounds .read a)

/-- `MemWrite(a, 1, b)` (R62). -/
def State.memWrite (s : State) (a : Nat) (b : Byte) : Except Fault State :=
  if a < memSize then .ok { s with mem := s.mem.write a b } else .error (.memoryOutOfBounds .write a)

/-- Single-byte writes at `a`, `a + 1`, and so on, in that order (R63). -/
def State.storeBytes (s : State) (a : Nat) : List Byte → Except Fault State
  | [] => .ok s
  | b :: bs => (s.memWrite a b).bind fun t => t.storeBytes (a + 1) bs

/-! ### Registers, I and pc -/

/-- `V[x]` (R20). -/
def State.v (s : State) (x : Reg) : Byte := s.V[x]

/-- `V[x] <- b` (R20). -/
def State.setV (s : State) (x : Reg) (b : Byte) : State := { s with V := s.V.set x b }

/-- `I <- v`, modulo 65536 (R8, R25). -/
def State.setI (s : State) (v : Nat) : State := { s with I := BitVec.ofNat 16 v }

/-- `pc <- v`, modulo 65536 (R8, R24). -/
def State.setPc (s : State) (v : Nat) : State := { s with pc := BitVec.ofNat 16 v }

/-- The skip of R15: `pc <- pc + 2` on top of the cycle's own advance, if the condition holds. -/
def State.skipIf (s : State) (c : Bool) : State := if c then s.setPc (s.pc.toNat + 2) else s

/-- Fx65's loads: for i in 0..count-1, `V[i] <- MemRead(base + i, 1)`, in ascending order (R165). -/
def State.loadBytes (s : State) (base : Nat) : Nat → Except Fault State
  | 0 => .ok s
  | i + 1 => (s.loadBytes base i).bind fun t => (t.memRead (base + i)).bind fun b => .ok (t.setV (Fin.ofNat 16 i) b)

/-- The number of registers that Fx55 and Fx65 move (R166). -/
def transferCount (range : LsRange) (x : Reg) : Nat :=
  match range with
  | .exclusive => x.val
  | .inclusive => x.val + 1

/-! ### The call stack (R26) -/

/-- Push: write `stack[SP]`, then increment SP; a full stack raises (R26, R132). -/
def State.push (s : State) (w : Word) : Except Fault State :=
  if h : s.sp.val < 16 then .ok { s with stack := s.stack.set s.sp.val w, sp := ⟨s.sp.val + 1, by omega⟩ }
  else .error .stackOverflow

/-- Pop: decrement SP, then read `stack[SP]`; an empty stack raises (R26, R130). -/
def State.pop (s : State) : Except Fault (Word × State) :=
  if h : s.sp.val = 0 then .error .stackUnderflow
  else .ok (s.stack[s.sp.val - 1], { s with sp := ⟨s.sp.val - 1, by omega⟩ })

/-! ### Timers, keypad, random source -/

/-- The decay of one timer: down by 1, never below 0 (R104). -/
def decayed (t : Byte) : Byte := if t = 0 then 0 else t - 1

/-- The timer decay at the end of a cycle (R104). -/
def State.decay (s : State) : State := { s with dt := decayed s.dt, st := decayed s.st }

/-- `KeyRead(k)`: an index above 15 raises (R170). -/
def State.keyRead (s : State) (k : Nat) : Except Fault Bool :=
  if h : k < 16 then .ok s.key[k] else .error (.keypadIndexOutOfRange k)

/-- The least k with `key[k] = 1`, if any (R174). -/
def State.lowestKey (s : State) : Option (Fin 16) := (List.finRange 16).find? fun k => s.key[k]

/-- `DrawRandom()`: the next free draw of the machine's own source, and the state with that draw taken (R152, R211), log 3. -/
def State.drawRandom (s : State) : Byte × State := (freeDraw s.source s.draws, { s with draws := s.draws + 1 })

/-! ### The framebuffer (R30) and sprite drawing (R121, R122) -/

/-- `FB(px, py)`; outside the grid there is no cell, and this reads dark. -/
def State.pixel (s : State) (px py : Nat) : Bool := (s.fb.getD py 0).getLsbD px

/-- Every cell dark (R120). -/
def State.clearFb (s : State) : State := { s with fb := Vector.replicate fbHeight 0 }

/-- A set sprite bit on a cell of the grid: VF becomes 1 if the cell is lit, then the cell is toggled (R121). -/
def State.toggle (s : State) (px py : Nat) : State :=
  let t := if s.pixel px py then s.setV 0xF 1 else s
  { t with fb := t.fb.setIfInBounds py (t.fb.getD py 0 ^^^ BitVec.twoPow 64 px) }

/-- A set sprite bit at (px, py): on the grid it is drawn; outside it goes to `Edge` (R121, R122). -/
def State.plot (edge : DrawEdge) (s : State) (px py : Nat) : Except Fault State :=
  if px < fbWidth ∧ py < fbHeight then .ok (s.toggle px py)
  else match edge with
    | .fault => .error (.framebufferOutOfBounds px py)
    | .clip => .ok s
    | .wrap => .ok (s.toggle (px % fbWidth) (py % fbHeight))

/-- Bit `7 - col` of a sprite row: the most significant bit is column 0 (R121). -/
def spriteBit (b : Byte) (col : Nat) : Bool := b.getLsbD (7 - col)

/-- The first `cols` columns of a sprite row, left to right. A zero bit does nothing (R121). -/
def State.drawCols (edge : DrawEdge) (b : Byte) (px0 py : Nat) (s : State) : Nat → Except Fault State
  | 0 => .ok s
  | col + 1 => (s.drawCols edge b px0 py col).bind fun t =>
      if spriteBit b col then t.plot edge (px0 + col) py else .ok t

/-- The first `rows` rows of a sprite, top to bottom; a row's byte is read before its pixels are drawn (R121). -/
def State.drawRows (edge : DrawEdge) (base px0 py0 : Nat) (s : State) : Nat → Except Fault State
  | 0 => .ok s
  | row + 1 => (s.drawRows edge base px0 py0 row).bind fun t =>
      (t.memRead (base + row)).bind fun b => t.drawCols edge b px0 (py0 + row) 8

/-! ### Faults (R105, R200, R201) -/

/-- The code number of a fault (R200; the spec's decision D12). -/
def Fault.code : Fault → Nat
  | .stackOverflow => 1
  | .stackUnderflow => 2
  | .memoryOutOfBounds _ _ => 3
  | .framebufferOutOfBounds _ _ => 4
  | .keypadIndexOutOfRange _ => 5

/-- Fault entry on the state from before the cycle: the fault status is set and nothing else changes (R201). -/
def State.abort (s : State) (r : FaultRecord) : State := { s with fault := some r }

/-- The fault entry of an instruction. `s` is the state its execution began in (pc already advanced, op latched): pc goes
back to the address fetched from, none of the instruction's changes are kept, and the record names that address and the
opcode (R201). `finishCycle` then puts back the opcode register from before the fetch. -/
def State.takeFault (s : State) (f : Fault) : State :=
  { s with pc := s.pc - 2 }.abort ⟨f, s.pc - 2, some s.op⟩

/-- The fault entry of a fetch: no opcode was fetched (R201). -/
def State.takeFetchFault (s : State) (f : Fault) : State := s.abort ⟨f, s.pc, none⟩

/-- How an instruction ends: its changes are committed, or the fault it raised is taken. -/
def State.finish (s : State) : Except Fault State → Host.Outcome State Fault Refusal
  | .ok t => .next t
  | .error f => .next (s.takeFault f)

/-! ### The phases of a cycle around execution (R100 to R105) -/

/-- The fetch: both bytes must be below 4096, pc checked before pc + 1 (R101). -/
def State.fetch (s : State) : Except Fault Word :=
  if s.pc.toNat ≥ memSize then .error (.memoryOutOfBounds .fetch s.pc.toNat)
  else if s.pc.toNat + 1 ≥ memSize then .error (.memoryOutOfBounds .fetch (s.pc.toNat + 1))
  else .ok (Word.ofBytes (s.mem.read s.pc.toNat) (s.mem.read (s.pc.toNat + 1)))

/-- The opcode is latched (R34) and the driver advances pc (R102): the state execution begins in. -/
def State.latch (s : State) (w : Word) : State := { s with op := w }.setPc (s.pc.toNat + 2)

/-- The end of a cycle that began in `s`: after a fault the state from before the cycle with the fault status set (R105,
R201), otherwise the timer decay (R104). -/
def State.finishCycle (s : State) : Host.Outcome State Fault Refusal → Host.Outcome State Fault Refusal
  | .next t =>
    match t.fault with
    | some r => .next (s.abort r)
    | none => .next t.decay
  | .fault f => .fault f
  | .refused r => .refused r

/-- The bytes of an instruction word stored at pc, big-endian (R64), where the next fetch reads them. A byte past the end
of memory is not stored. -/
def State.placeWord (s : State) (w : Word) : State :=
  let put (m : Memory) (a : Nat) (b : Byte) : Memory := if a < memSize then m.write a b else m
  { s with mem := put (put s.mem s.pc.toNat w.hiByte) (s.pc.toNat + 1) w.loByte }

end Sys2Proof.Machine
end

