-- ==== Sys2Proof/Machine/Flags.lean ====
section
/-! DEFINITION. The values written to VF as a flag (R21), and the order in which a flag and a result are written. -/

namespace Sys2Proof.Machine

/-- A flag as the byte VF takes: 1 or 0. -/
def flagByte (c : Bool) : Byte := if c then 1 else 0

/-- The widened sum of 8xy4, 0 to 510 (R146). -/
def wideSum (a b : Byte) : Nat := a.toNat + b.toNat

/-- The carry of 8xy4 (R146). -/
def carry (a b : Byte) : Bool := decide (wideSum a b > 255)

/-- The "not-borrow" of `a - b`: strictly greater, unsigned (R147, R149, R11). -/
def notBorrow (a b : Byte) : Bool := decide (a.toNat > b.toNat)

/-- The bit that 8xy6 shifts out (R148). -/
def lowBit (a : Byte) : Byte := a &&& 1

/-- The bit that 8xyE shifts out (R150). -/
def highBit (a : Byte) : Byte := a >>> 7

/-- `V[0xF] <- f` (R21). -/
def State.setFlag (s : State) (f : Byte) : State := s.setV 0xF f

end Sys2Proof.Machine
end

