-- ==== Sys2Proof/Machine/Operands.lean ====
section
/-! DEFINITION. Operand forms and effective addresses (R10, R81, R167). -/

namespace Sys2Proof.Machine

open Sys2Proof.Config

/-- The immediate `kk` as the byte a register takes (R8, R10). -/
def immByte (kk : Nat) : Byte := BitVec.ofNat 8 kk

/-- The effective address `I + 0` of a data access as an unbounded number, to which the loops of Ops.lean add their offset
without a wrap (R62, R167). -/
def State.indexAddr (s : State) : Nat := s.I.toNat

/-- The address of the font glyph for a register's value, which is not masked (R162). -/
def glyphAddr (b : Byte) : Nat := fontBase + b.toNat * glyphBytes

/-- The anchor column of a sprite (R121). -/
def anchorX (b : Byte) : Nat := b.toNat % fbWidth

/-- The anchor row of a sprite (R121). -/
def anchorY (b : Byte) : Nat := b.toNat % fbHeight

/-- The hundreds, tens and ones of a byte, in the order Fx33 stores them (R163). -/
def bcdDigits (b : Byte) : List Byte :=
  [BitVec.ofNat 8 (b.toNat / 100), BitVec.ofNat 8 (b.toNat / 10 % 10), BitVec.ofNat 8 (b.toNat % 10)]

/-- The values of V0 to V(count-1), in the order Fx55 stores them (R164). -/
def State.firstRegs (s : State) (count : Nat) : List Byte := s.V.toList.take count

end Sys2Proof.Machine
end

