-- ==== Sys2Proof/Machine/Alu.lean ====
section
/-! DEFINITION. The register and arithmetic instructions (43_alu.md). The assignments are sequential (R12): each reads the registers as
the one before it left them, which decides VF when x or y is 15 (the spec's decision D2, log 8). -/

namespace Sys2Proof.Machine

/-- 6xkk: Vx := kk (R140). -/
def execLdImm (x : Reg) (kk : Nat) (s : State) : Host.Outcome State Fault Refusal :=
  .next (s.setV x (immByte kk))

/-- 7xkk: Vx := Vx + kk, modulo 256, no flag (R141). -/
def execAddImm (x : Reg) (kk : Nat) (s : State) : Host.Outcome State Fault Refusal :=
  .next (s.setV x (BitVec.ofNat 8 ((s.v x).toNat + kk)))

/-- 8xy0: Vx := Vy (R142). -/
def execLdReg (x y : Reg) (s : State) : Host.Outcome State Fault Refusal :=
  .next (s.setV x (s.v y))

/-- 8xy1: Vx := Vx OR Vy (R143). -/
def execOrReg (x y : Reg) (s : State) : Host.Outcome State Fault Refusal :=
  .next (s.setV x (s.v x ||| s.v y))

/-- 8xy2: Vx := Vx AND Vy (R144). -/
def execAndReg (x y : Reg) (s : State) : Host.Outcome State Fault Refusal :=
  .next (s.setV x (s.v x &&& s.v y))

/-- 8xy3: Vx := Vx XOR Vy (R145). -/
def execXorReg (x y : Reg) (s : State) : Host.Outcome State Fault Refusal :=
  .next (s.setV x (s.v x ^^^ s.v y))

/-- 8xy4: the widened sum first, then VF := carry, then Vx := sum modulo 256 (R146). -/
def execAddReg (x y : Reg) (s : State) : Host.Outcome State Fault Refusal :=
  let sum := wideSum (s.v x) (s.v y)
  .next ((s.setFlag (flagByte (carry (s.v x) (s.v y)))).setV x (BitVec.ofNat 8 sum))

/-- 8xy5: VF := (Vx > Vy), then Vx := Vx - Vy modulo 256 (R147). -/
def execSubReg (x y : Reg) (s : State) : Host.Outcome State Fault Refusal :=
  let t := s.setFlag (flagByte (notBorrow (s.v x) (s.v y)))
  .next (t.setV x (t.v x - t.v y))

/-- 8xy6: VF := bit 0 of Vx, then Vx := Vx >> 1 (R148). -/
def execShr (x : Reg) (s : State) : Host.Outcome State Fault Refusal :=
  let t := s.setFlag (lowBit (s.v x))
  .next (t.setV x (t.v x >>> 1))

/-- 8xy7: VF := (Vy > Vx), then Vx := Vy - Vx modulo 256 (R149). -/
def execSubnReg (x y : Reg) (s : State) : Host.Outcome State Fault Refusal :=
  let t := s.setFlag (flagByte (notBorrow (s.v y) (s.v x)))
  .next (t.setV x (t.v y - t.v x))

/-- 8xyE: VF := bit 7 of Vx, then Vx := Vx << 1 modulo 256 (R150). -/
def execShl (x : Reg) (s : State) : Host.Outcome State Fault Refusal :=
  let t := s.setFlag (highBit (s.v x))
  .next (t.setV x (t.v x <<< 1))

/-- Cxkk: Vx := a random byte AND kk; the draw is taken whatever kk is (R151, R152), log 3. -/
def execRnd (x : Reg) (kk : Nat) (s : State) : Host.Outcome State Fault Refusal :=
  let r := s.drawRandom
  .next (r.2.setV x (r.1 &&& immByte kk))

end Sys2Proof.Machine
end

