-- ==== Sys2Proof/Machine/ControlFlow.lean ====
section
/-! DEFINITION. The control-flow instructions (42_control_flow.md). In every meaning pc already holds the instruction's address + 2
(R102). -/

namespace Sys2Proof.Machine

/-- 00EE: return (R130). -/
def execRet (s : State) : Host.Outcome State Fault Refusal :=
  s.finish (s.pop.bind fun r => .ok (r.2.setPc r.1.toNat))

/-- 1nnn: jump (R131). -/
def execJp (nnn : Nat) (s : State) : Host.Outcome State Fault Refusal :=
  .next (s.setPc nnn)

/-- 2nnn: call; pc, the return address, is pushed (R132). -/
def execCall (nnn : Nat) (s : State) : Host.Outcome State Fault Refusal :=
  s.finish ((s.push s.pc).bind fun t => .ok (t.setPc nnn))

/-- 3xkk: skip if Vx = kk (R133). -/
def execSeImm (x : Reg) (kk : Nat) (s : State) : Host.Outcome State Fault Refusal :=
  .next (s.skipIf (decide ((s.v x).toNat = kk)))

/-- 4xkk: skip if Vx ≠ kk (R134). -/
def execSneImm (x : Reg) (kk : Nat) (s : State) : Host.Outcome State Fault Refusal :=
  .next (s.skipIf (decide ((s.v x).toNat ≠ kk)))

/-- 5xy0: skip if Vx = Vy (R135). -/
def execSeReg (x y : Reg) (s : State) : Host.Outcome State Fault Refusal :=
  .next (s.skipIf (decide (s.v x = s.v y)))

/-- 9xy0: skip if Vx ≠ Vy (R136). -/
def execSneReg (x y : Reg) (s : State) : Host.Outcome State Fault Refusal :=
  .next (s.skipIf (decide (s.v x ≠ s.v y)))

/-- Bnnn: jump to V0 + nnn (R137). -/
def execJpV0 (nnn : Nat) (s : State) : Host.Outcome State Fault Refusal :=
  .next (s.setPc ((s.v 0).toNat + nnn))

end Sys2Proof.Machine
end

