-- ==== Sys2Proof/Machine/Display.lean ====
section
/-! DEFINITION. The display instructions (41_display.md). In every meaning pc already holds the instruction's address + 2 (R102). -/

namespace Sys2Proof.Machine

/-- 00E0: clear the framebuffer (R120). -/
def execCls (s : State) : Host.Outcome State Fault Refusal :=
  .next s.clearFb

/-- Dxyn: draw n sprite rows from I at (Vx mod 64, Vy mod 32); the anchor is computed before VF is cleared (R121; the spec's
decision D6, log 9). -/
def execDrw (x y : Reg) (n : Nat) (s : State) : Host.Outcome State Fault Refusal :=
  s.finish ((s.setFlag 0).drawRows drawEdge s.indexAddr (anchorX (s.v x)) (anchorY (s.v y)) n)

end Sys2Proof.Machine
end

