-- ==== Sys2Proof/Machine/IndexMemory.lean ====
section
/-! DEFINITION. The index register and memory instructions (44_index_memory.md). None changes I but Annn, Fx1E and Fx29 (the spec's
decision D4, log 13). -/

namespace Sys2Proof.Machine

/-- Annn: I := nnn (R160). -/
def execLdI (nnn : Nat) (s : State) : Host.Outcome State Fault Refusal :=
  .next (s.setI nnn)

/-- Fx1E: I := I + Vx modulo 65536, no flag (R161). -/
def execAddI (x : Reg) (s : State) : Host.Outcome State Fault Refusal :=
  .next (s.setI (s.I.toNat + (s.v x).toNat))

/-- Fx29: I := the address of the glyph for Vx (R162). -/
def execLdFont (x : Reg) (s : State) : Host.Outcome State Fault Refusal :=
  .next (s.setI (glyphAddr (s.v x)))

/-- Fx33: the decimal digits of Vx to I, I+1, I+2 (R163). -/
def execLdBcd (x : Reg) (s : State) : Host.Outcome State Fault Refusal :=
  s.finish (s.storeBytes s.indexAddr (bcdDigits (s.v x)))

/-- Fx55: V0 to V(c-1) to memory from I, c from R166 (R164). -/
def execStoreRegs (x : Reg) (s : State) : Host.Outcome State Fault Refusal :=
  s.finish (s.storeBytes s.indexAddr (s.firstRegs (transferCount lsRange x)))

/-- Fx65: V0 to V(c-1) from memory from I, c from R166 (R165). -/
def execLoadRegs (x : Reg) (s : State) : Host.Outcome State Fault Refusal :=
  s.finish (s.loadBytes s.indexAddr (transferCount lsRange x))

end Sys2Proof.Machine
end

