-- ==== Sys2Proof/Machine/KeypadTimers.lean ====
section
/-! DEFINITION. The keypad and timer instructions (45_keypad_timers.md). The timers decay after execution (R104), in `finishCycle`. -/

namespace Sys2Proof.Machine

/-- Ex9E: skip if key Vx is pressed (R171). -/
def execSkp (x : Reg) (s : State) : Host.Outcome State Fault Refusal :=
  s.finish ((s.keyRead (s.v x).toNat).bind fun k => .ok (s.skipIf k))

/-- ExA1: skip if key Vx is not pressed (R172). -/
def execSknp (x : Reg) (s : State) : Host.Outcome State Fault Refusal :=
  s.finish ((s.keyRead (s.v x).toNat).bind fun k => .ok (s.skipIf !k))

/-- Fx07: Vx := DT (R173). -/
def execLdVxDt (x : Reg) (s : State) : Host.Outcome State Fault Refusal :=
  .next (s.setV x s.dt)

/-- Fx0A: Vx := the lowest pressed key; with none pressed pc goes back 2, so that the next cycle fetches this instruction
again (R174; the spec's decision D18, log 17). -/
def execLdVxKey (x : Reg) (s : State) : Host.Outcome State Fault Refusal :=
  match s.lowestKey with
  | some k => .next (s.setV x (BitVec.ofNat 8 k.val))
  | none => .next { s with pc := s.pc - 2 }

/-- Fx15: DT := Vx (R175). -/
def execLdDtVx (x : Reg) (s : State) : Host.Outcome State Fault Refusal :=
  .next { s with dt := s.v x }

/-- Fx18: ST := Vx (R176). -/
def execLdStVx (x : Reg) (s : State) : Host.Outcome State Fault Refusal :=
  .next { s with st := s.v x }

end Sys2Proof.Machine
end

