-- ==== Sys2Proof/Machine/Cycle.lean ====
section
/-! DEFINITION. The cycle driver: fetch, advance, dispatch and execute, timer decay (R100 to R107). -/

namespace Sys2Proof.Machine

/-- Dispatch and execute: the instruction the opcode selects runs once; a decode miss does nothing (R90, R103). -/
def State.execute (s : State) (w : Word) : Host.Outcome State Fault Refusal :=
  match decodeWord w with
  | .ok i => exec i s
  | .error _ => .next s

/-- One cycle of a machine that is not faulted (R100, R107). -/
def State.runCycle (s : State) : Host.Outcome State Fault Refusal :=
  match s.fetch with
  | .error f => .next (s.takeFetchFault f)
  | .ok w => s.finishCycle ((s.latch w).execute w)

/-- `cycle()` (R107): a faulted machine does nothing, and the recorded fault is the outcome (R106), log 1. -/
def State.cycleStep (s : State) : Host.Outcome State Fault Refusal :=
  match s.fault with
  | some r => .fault r.fault
  | none => s.runCycle

end Sys2Proof.Machine
end

