-- ==== Sys2Proof/Machine/Step.lean ====
section
/-! DEFINITION. The step, and the host's placing of an instruction where the next step fetches it. -/

namespace Sys2Proof.Machine

/-- One `cycle()` (R100). -/
def step (s : State) : Host.Outcome State Fault Refusal := s.cycleStep

/-- The table word `w` stored where the next step fetches (log 25, log 26). -/
def State.withFetchWord (s : State) (nbits w : Nat) : State := s.placeWord (Word.ofTable nbits w)

end Sys2Proof.Machine
end

