-- ==== Sys2Proof/Machine/Transactions.lean ====
section
/-! DEFINITION. The host's transactions (R40 to R46): each is one function on the state, so each is atomic with respect to
every other and none overlaps another (R45), log 21. -/

namespace Sys2Proof.Machine

open Sys2Proof.Config

/-- A newly constructed Machine that owns the random source `source`: the state of R39. Two Machines share no state, and
each has a source of its own (R35, R211), log 3. -/
def State.newMachine (source : Nat) : State := { State.reset with source := source }

/-- `construct()` on this machine: every piece of state at its value of R39, the fault status included (R230). The count of
draws of its source goes on, so that the source, seeded anew, is not taken to repeat its earlier draws, log 29. -/
def State.construct (s : State) : State := { State.newMachine s.source with draws := s.draws }

/-- What `load` answers (R232). -/
inductive LoadResult where
  | ok
  /-- The image is longer than 3584 bytes. -/
  | loadTooLarge
deriving DecidableEq, Repr

/-- The code number of an error of `load` (R200): LoadTooLarge is code 16; `Ok` is no error and has none. -/
def LoadResult.code : LoadResult → Option Nat
  | .ok => none
  | .loadTooLarge => some 16

/-- `load(bytes)`: the image to memory from 0x200, or nothing if it is longer than 3584 bytes (R232). It is allowed at any
time between cycles, on a faulted machine too (the spec's decision D19), log 18. -/
def State.load (s : State) (bytes : List Byte) : State × LoadResult :=
  if bytes.length ≤ maxRom then ({ s with mem := s.mem.writeList progBase bytes }, .ok) else (s, .loadTooLarge)

/-- The host sets one key input (R42). -/
def State.writeKey (s : State) (k : Fin 16) (pressed : Bool) : State := { s with key := s.key.set k pressed }

/-- The host reads the framebuffer: cell (px, py) is at index py·64 + px (R43). -/
def State.readFramebuffer (s : State) : List Bool :=
  (List.range (fbWidth * fbHeight)).map fun i => s.pixel (i % fbWidth) (i / fbWidth)

/-- The host reads the keypad (R41). -/
def State.readKeypad (s : State) : Vector Bool 16 := s.key

/-- The host reads ST, to sound while it is not zero (R44). -/
def State.readSoundTimer (s : State) : Byte := s.st

/-- The host reads the fault status (R44). -/
def State.readFaultStatus (s : State) : Option FaultRecord := s.fault

/-- What `cycle()` returns: `Ok`, or the fault that cycle raised or that was recorded already (R46). -/
inductive CycleResult where
  | ok
  | fault (f : Fault)
  /-- The step has no meaning; no step does. -/
  | refused (r : Refusal)
deriving DecidableEq, Repr

/-- `cycle()` as the host sees it: the state after it and what it returns (R46, R204, R106). -/
def State.cycle (s : State) : State × CycleResult :=
  match step s with
  | .next t =>
    match t.fault with
    | none => (t, .ok)
    | some r => (t, .fault r.fault)
  | .fault f => (s, .fault f)
  | .refused r => (s, .refused r)

/-- The optional `DecodeMiss(pc, op)` event of the next cycle (R90, R212; the spec's decision D21). Nothing reads it.
DESIGN CHOICE, log 23: neither R90 nor D21 says which pc the event carries, and at dispatch pc is already past the word
(R102); here it is the address the missed word was fetched from. -/
def State.decodeMissEvent (s : State) : Option (Word × Word) :=
  match s.fault, s.fetch with
  | none, .ok w =>
    match decodeWord w with
    | .ok _ => none
    | .error _ => some (s.pc, w)
  | _, _ => none

/-- The transactions that can change the state (R40, R41). -/
inductive Transaction where
  | construct
  | load (bytes : List Byte)
  | cycle
  | writeKey (k : Fin 16) (pressed : Bool)
deriving DecidableEq, Repr

/-- The state after one transaction. -/
def State.perform (s : State) : Transaction → State
  | .construct => s.construct
  | .load bytes => (s.load bytes).1
  | .cycle => s.cycle.1
  | .writeKey k pressed => s.writeKey k pressed

/-- The state after the host's transactions, one after the other (R45, R233, R235). -/
def State.performAll (s : State) (ts : List Transaction) : State := ts.foldl State.perform s

end Sys2Proof.Machine
end

