-- ==== Sys2Proof/Safety.lean ====
section
/-! DEFINITION. The terms claims are stated in: which faults an instruction can raise, precise fault records, the
invariant of the machine, and runs without a fault. -/

namespace Sys2Proof.Machine

/-- Bit `7 - col` of sprite row `row`, read from memory at I + row (R121). -/
def spriteBitAt (s : State) (row col : Nat) : Bool := (s.mem.read (s.I.toNat + row)).getLsbD (7 - col)

/-- The faults that an instruction can raise in a state, with their info (R200 and the instructions' own rules). A memory
fault names the first address past memory (R203), and a framebuffer fault a set sprite bit outside the grid, of a row that
is in memory. -/
def CanRaise (i : Instr) (s : State) (f : Fault) : Prop :=
  match i, f with
  | .call _, .stackOverflow => s.sp.val = 16
  | .ret, .stackUnderflow => s.sp.val = 0
  | .drw _ _ n, .memoryOutOfBounds .read a => a = max s.I.toNat 4096 ∧ a < s.I.toNat + n
  | .drw x y n, .framebufferOutOfBounds px py =>
    (64 ≤ px ∨ 32 ≤ py) ∧ ∃ row col, row < n ∧ col < 8 ∧ s.I.toNat + row < 4096 ∧ spriteBitAt s row col = true ∧
      px = (s.v x).toNat % 64 + col ∧ py = (s.v y).toNat % 32 + row
  | .ldBcd _, .memoryOutOfBounds .write a => a = max s.I.toNat 4096 ∧ a < s.I.toNat + 3
  | .storeRegs x, .memoryOutOfBounds .write a => a = max s.I.toNat 4096 ∧ a < s.I.toNat + x.val
  | .loadRegs x, .memoryOutOfBounds .read a => a = max s.I.toNat 4096 ∧ a < s.I.toNat + x.val
  | .skp x, .keypadIndexOutOfRange k => k = (s.v x).toNat ∧ 16 ≤ k
  | .sknp x, .keypadIndexOutOfRange k => k = (s.v x).toNat ∧ 16 ≤ k
  | _, _ => False

/-- The fault status, if any, is precise (R201): it names the address in pc, and either the fetch there faults so, or
the opcode there is the recorded one and its instruction can raise the fault in this state. -/
def State.FaultPrecise (s : State) : Prop :=
  ∀ r, s.fault = some r →
    r.fpc = s.pc ∧
    match r.fop with
    | none => s.fetch = .error r.fault
    | some w => s.fetch = .ok w ∧ ∃ i, decodeWord w = .ok i ∧ CanRaise i s r.fault

/-- What holds of the state between transactions whatever the host does: memory is in its canonical form, pc is at most
the largest address an instruction writes, and a return address is at most the end of memory (R24, R26, R60). -/
def State.InBounds (s : State) : Prop :=
  s.mem.wf = true ∧ s.pc.toNat ≤ 0x10FE ∧ ∀ k : Fin 16, (s.stack[k]).toNat ≤ 0x1000

/-- The invariant every step keeps: the bounds, and a precise fault status. -/
def State.Inv (s : State) : Prop := s.InBounds ∧ s.FaultPrecise

/-- A run of `n` cycles from `s` in which no cycle faults: its last state is not faulted, and a faulted machine runs no
further cycle (R106, R235). -/
def SafeRun (n : Nat) (s : State) : Prop := ∃ t, Sys2Proof.core.run n s = .next t ∧ t.fault = none

end Sys2Proof.Machine
end

