-- ==== Sys2Proof/Certificates/Slice0/Obligations.lean ====
section
/-! DEFINITION. The statements for the provers, from the numbered rules of spec/. A statement about `exec` speaks of the
execute phase of a cycle: pc already holds the instruction's address + 2 and the opcode is latched (R102, R103). -/

namespace Sys2Proof.Claims

open Sys2Proof.Machine

/-- `i` completes at `s`, and only pc may change: it becomes `p`. -/
def JumpsTo (i : Instr) (s : State) (p : Word) : Prop := exec i s = .next { s with pc := p }

/-- `i` completes at `s` with Vx = `b`, and nothing else changes: no other register, VF included, and no other state. -/
def SetsReg (i : Instr) (s : State) (x : Reg) (b : Byte) : Prop :=
  ∃ t, exec i s = .next t ∧ t.v x = b ∧ (∀ r, r ≠ x → t.v r = s.v r) ∧ t = { s with V := t.V }

/-- `i` completes at `s` with Vx = `b` and, where x is not 15, VF = `f`; nothing else changes. -/
def SetsRegAndFlag (i : Instr) (s : State) (x : Reg) (b f : Byte) : Prop :=
  ∃ t, exec i s = .next t ∧ t.v x = b ∧ (x ≠ 15 → t.v 15 = f) ∧ (∀ r, r ≠ x → r ≠ 15 → t.v r = s.v r) ∧
    t = { s with V := t.V }

/-- `i` raises `f` at `s`: none of its changes remain, pc is back at its address, and the fault status records the fault,
that address and the opcode (R201). -/
def Raises (i : Instr) (s : State) (f : Fault) : Prop :=
  exec i s = .next { s with pc := s.pc - 2, fault := some ⟨f, s.pc - 2, some s.op⟩ }

/-- A timer after one decay (R104). -/
def lessOne (b : Byte) : Byte := BitVec.ofNat 8 (b.toNat - 1)

/-- Every row of the sprite is in memory and every set bit is in the grid: Dxyn raises nothing (R121, R122). -/
def SpriteFits (s : State) (x y : Reg) (n : Nat) : Prop :=
  ∀ row, row < n → s.I.toNat + row < 4096 ∧
    ∀ col, col < 8 → spriteBitAt s row col = true →
      (s.v x).toNat % 64 + col < 64 ∧ (s.v y).toNat % 32 + row < 32

/-- Whether a set bit of the sprite lands on cell (px, py) (R121). -/
def spriteCovers (s : State) (x y : Reg) (n px py : Nat) : Bool :=
  decide ((s.v x).toNat % 64 ≤ px ∧ px < (s.v x).toNat % 64 + 8 ∧
    (s.v y).toNat % 32 ≤ py ∧ py < (s.v y).toNat % 32 + n) &&
  spriteBitAt s (py - (s.v y).toNat % 32) (px - (s.v x).toNat % 64)

/-- The first raise of Dxyn in program order, if any: row by row, the row's read before its pixels, the pixels by column
(R203). -/
def firstDrawFault (s : State) (x y : Reg) (n : Nat) : Option Fault :=
  (List.range n).findSome? fun row =>
    if 4096 ≤ s.I.toNat + row then some (.memoryOutOfBounds .read (s.I.toNat + row))
    else (List.range 8).findSome? fun col =>
      if spriteBitAt s row col = true ∧ (64 ≤ (s.v x).toNat % 64 + col ∨ 32 ≤ (s.v y).toNat % 32 + row)
      then some (.framebufferOutOfBounds ((s.v x).toNat % 64 + col) ((s.v y).toNat % 32 + row)) else none

/-- The registers an instruction writes (the "writes" column of R22, with c = x for Fx65). -/
def writesReg (i : Instr) (r : Reg) : Prop :=
  match i with
  | .ldImm x _ | .addImm x _ | .ldReg x _ | .orReg x _ | .andReg x _ | .xorReg x _ | .rnd x _ | .ldVxDt x
  | .ldVxKey x => r = x
  | .addReg x _ | .subReg x _ | .subnReg x _ | .shr x | .shl x => r = 15 ∨ r = x
  | .drw _ _ _ => r = 15
  | .loadRegs x => r < x
  | _ => False

end Sys2Proof.Claims

open Sys2Proof Sys2Proof.Machine Sys2Proof.Claims

/-! ### The cycle -/

/-- When the two bytes at pc decode to `i`, a step of a machine that is not faulted runs `exec i` on the state with the
opcode latched and pc advanced by 2; then the timers decay, or, if `i` took a fault, the state from before the cycle is
kept with that fault status. The fault clause is the spec's decision D11 (log 1, log 2). -/
def Obligations.StepRunsDecodedInstruction : Prop :=
  ∀ (s : State) (i : Instr) (t : State), s.fault = none → s.pc.toNat + 1 < 4096 →
    decode [s.mem.read s.pc.toNat, s.mem.read (s.pc.toNat + 1)] = .ok (i, []) →
    exec i { s with op := Word.ofBytes (s.mem.read s.pc.toNat) (s.mem.read (s.pc.toNat + 1)), pc := s.pc + 2 } = .next t →
    (t.fault = none → step s = .next { t with dt := lessOne t.dt, st := lessOne t.st }) ∧
    ∀ r, t.fault = some r → step s = .next { s with fault := some r }

/-- R64: the fetch is big-endian; the byte at the lower address is op[15:8]. -/
def Obligations.FetchIsBigEndian : Prop :=
  ∀ s : State, s.pc.toNat + 1 < 4096 → ∃ w : Word, s.fetch = .ok w ∧
    w.toNat = (s.mem.read s.pc.toNat).toNat * 256 + (s.mem.read (s.pc.toNat + 1)).toNat ∧
    w.toNat / 256 = (s.mem.read s.pc.toNat).toNat

/-- A fetch with either byte at or past 4096 faults at the first such address, and only the fault status changes: the
fetch rule of 40_cycle.md (the spec's decision D7, log 10) and the fault entry (D11, log 1). -/
def Obligations.FetchPastMemoryIsTakenAsFault : Prop :=
  ∀ s : State, s.fault = none → 4096 ≤ s.pc.toNat + 1 →
    step s = .next { s with
      fault := some ⟨.memoryOutOfBounds .fetch (if s.pc.toNat = 4095 then 4096 else s.pc.toNat), s.pc, none⟩ }

/-- On a decode miss the cycle executes nothing: pc advances by 2, the opcode is latched and the timers decay (the decode
miss rule of 30_encoding.md, whose optional trace event, the spec's decision D21, is not stated here; log 23). -/
def Obligations.DecodeMissOnlyAdvances : Prop :=
  ∀ (s : State) (w : Word) (m : DecodeMiss), s.fault = none → s.fetch = .ok w → decodeWord w = .error m →
    step s = .next { s with op := w, pc := s.pc + 2, dt := lessOne s.dt, st := lessOne s.st }

/-- Every cycle of a machine that is not faulted answers a next state, whatever word is at pc: no encoding traps and no
instruction is refused. A cycle that raises (a fetch past memory, RET on an empty stack) answers one too, by the model's
choice of log 1 over the spec's decision D11: the next state then has the fault recorded. -/
def Obligations.EveryUnfaultedCycleCompletes : Prop :=
  ∀ s : State, s.fault = none → ∃ t, step s = .next t

/-- A cycle on a faulted machine changes nothing and returns the recorded fault: the spec's decision D11 (log 1). -/
def Obligations.FaultedMachineDoesNothing : Prop :=
  ∀ (s : State) (r : FaultRecord), s.fault = some r → step s = .fault r.fault ∧ s.cycle = (s, .fault r.fault)

/-- R104: in every cycle that does not fault both timers decrement once, after execute, never below 0: also in a
decode-miss cycle, in a waiting Fx0A and in the cycle whose Fx15 or Fx18 has just written the timer. Fx07 reads DT before
its cycle's decrement. -/
def Obligations.TimersDecayOncePerCycle : Prop :=
  ∀ (s t : State) (w : Word), step s = .next t → t.fault = none → s.fetch = .ok w →
    ((∀ x, decodeWord w = .ok (.ldDtVx x) → t.dt.toNat = (s.v x).toNat - 1) ∧
      ((∀ x, decodeWord w ≠ .ok (.ldDtVx x)) → t.dt.toNat = s.dt.toNat - 1)) ∧
    ((∀ x, decodeWord w = .ok (.ldStVx x) → t.st.toNat = (s.v x).toNat - 1) ∧
      ((∀ x, decodeWord w ≠ .ok (.ldStVx x)) → t.st.toNat = s.st.toNat - 1)) ∧
    ∀ x, decodeWord w = .ok (.ldVxDt x) → t.v x = s.dt

/-- A cycle that faults commits nothing but the fault status, which names the address fetched from and the opcode fetched,
or none if the fetch faulted: the fault entry of 60_exceptions.md (the spec's decision D11, log 1). -/
def Obligations.FaultingCycleCommitsNothing : Prop :=
  ∀ (s t : State) (r : FaultRecord), step s = .next t → t.fault = some r →
    t = { s with fault := some r } ∧ r.fpc = s.pc ∧ (r.fop = none ↔ 4096 ≤ s.pc.toNat + 1) ∧
    ∀ w, r.fop = some w ↔ s.fetch = .ok w

/-- An instruction raises only the faults that the table of 60_exceptions.md lists for it, under their conditions and with
their info, and taking one leaves everything but pc and the fault status as it was (the spec's decisions D11, D12; log 1,
log 14). -/
def Obligations.InstructionsRaiseOnlyListedFaults : Prop :=
  ∀ (i : Instr) (s t : State) (r : FaultRecord), s.fault = none → exec i s = .next t → t.fault = some r →
    CanRaise i s r.fault ∧ Raises i s r.fault

/-- Every step keeps the invariant: canonical memory, pc at most 0x10FE, return addresses at most 0x1000, and a fault
status that is precise. -/
def Obligations.EveryStepKeepsInvariant : Prop :=
  ∀ s t : State, s.Inv → step s = .next t → t.Inv

/-- The state after construct() meets the invariant. -/
def Obligations.ResetMeetsInvariant : Prop := State.reset.Inv

/-- Whatever transactions the host issues, in any order, memory stays canonical, pc at most 0x10FE and return addresses at
most 0x1000. -/
def Obligations.TransactionsKeepBounds : Prop :=
  ∀ (ts : List Transaction) (s : State), s.InBounds → (s.performAll ts).InBounds

/-- The state after construct(), from any state. I, FB, op, the fault status and the keypad have the values of the spec's
decision D15 (log 5), the font those of its decision D25 (log 4). -/
def Obligations.ConstructSetsResetValues : Prop :=
  ∀ s : State,
    (∀ r, s.construct.v r = 0) ∧ s.construct.I = 0 ∧ s.construct.pc = 0x200 ∧ s.construct.sp = 0 ∧
    (∀ k : Fin 16, s.construct.stack[k] = 0) ∧ s.construct.dt = 0 ∧ s.construct.st = 0 ∧
    (∀ a, s.construct.mem.read a = if 0x050 ≤ a ∧ a < 0x0A0 then fontTable.getD (a - 0x050) 0 else 0) ∧
    (∀ px py, s.construct.pixel px py = false) ∧ (∀ k : Fin 16, s.construct.key[k] = false) ∧
    s.construct.op = 0 ∧ s.construct.fault = none

/-! ### Encoding -/

/-- Decoding the bytes of an encoded well-formed instruction gives it back, and the bytes after it are left. -/
def Obligations.DecodeInvertsEncode : Prop :=
  ∀ (i : Instr) (rest : List Byte), i.wf = true → decode (encodeBytes i ++ rest) = .ok (i, rest)

/-- The decoder drops no bit that a rule reads: encoding what a word decodes to gives the word's own bits, outside the
ignored ones. -/
def Obligations.DecodeKeepsEveryReadBit : Prop :=
  ∀ (w : Word) (i : Instr), decodeWord w = .ok i → encode i &&& i.readMask = w &&& i.readMask

/-- The ignored bits change neither the instruction selected nor its operands (derived by the spec itself from the
dispatch rules). -/
def Obligations.IgnoredBitsSelectNothing : Prop :=
  ∀ (w w' : Word) (i : Instr), decodeWord w = .ok i → w' &&& i.readMask = w &&& i.readMask → decodeWord w' = .ok i

/-- What the decoder gives has operands that fit their fields. -/
def Obligations.DecodedInstructionIsWellFormed : Prop :=
  ∀ (w : Word) (i : Instr), decodeWord w = .ok i → i.wf = true

/-- The opcode table of 30_encoding.md, as masks and matches: it has 34 rows, at most one of which matches a word; a word that decodes matches its instruction's row,
and a word is a miss exactly if no row matches it. The mnemonics are not part of the statement. -/
def Obligations.OpcodeTableSelectsOneRowOrNone : Prop :=
  opcodeTable.length = 34 ∧ opcodeTable.Nodup ∧
  ∀ w : Word,
    (∀ r ∈ opcodeTable, ∀ r' ∈ opcodeTable, w &&& r.mask = r.pattern → w &&& r'.mask = r'.pattern → r = r') ∧
    (∀ i, decodeWord w = .ok i → i.row ∈ opcodeTable ∧ w &&& i.row.mask = i.row.pattern) ∧
    ((∃ m, decodeWord w = .error m) ↔ ∀ r ∈ opcodeTable, w &&& r.mask ≠ r.pattern)

/-- R85: the twelve direct classes, each with every value of its operand fields. -/
def Obligations.DirectClassesSelectOneInstruction : Prop :=
  (∀ nnn, nnn < 4096 →
    decodeWord (BitVec.ofNat 16 (0x1000 + nnn)) = .ok (.jp nnn) ∧
    decodeWord (BitVec.ofNat 16 (0x2000 + nnn)) = .ok (.call nnn) ∧
    decodeWord (BitVec.ofNat 16 (0xA000 + nnn)) = .ok (.ldI nnn) ∧
    decodeWord (BitVec.ofNat 16 (0xB000 + nnn)) = .ok (.jpV0 nnn)) ∧
  (∀ (x : Reg) (kk : Nat), kk < 256 →
    decodeWord (BitVec.ofNat 16 (0x3000 + x.val * 256 + kk)) = .ok (.seImm x kk) ∧
    decodeWord (BitVec.ofNat 16 (0x4000 + x.val * 256 + kk)) = .ok (.sneImm x kk) ∧
    decodeWord (BitVec.ofNat 16 (0x6000 + x.val * 256 + kk)) = .ok (.ldImm x kk) ∧
    decodeWord (BitVec.ofNat 16 (0x7000 + x.val * 256 + kk)) = .ok (.addImm x kk) ∧
    decodeWord (BitVec.ofNat 16 (0xC000 + x.val * 256 + kk)) = .ok (.rnd x kk)) ∧
  (∀ (x y : Reg) (n : Nat), n < 16 →
    decodeWord (BitVec.ofNat 16 (0x5000 + x.val * 256 + y.val * 16 + n)) = .ok (.seReg x y) ∧
    decodeWord (BitVec.ofNat 16 (0x9000 + x.val * 256 + y.val * 16 + n)) = .ok (.sneReg x y) ∧
    decodeWord (BitVec.ofNat 16 (0xD000 + x.val * 256 + y.val * 16 + n)) = .ok (.drw x y n))

/-- R86 to R89: every stage-2 key, with every value of the other bits: what it selects, or a decode miss. -/
def Obligations.StageTwoKeysSelectOrMiss : Prop :=
  (∀ a k, a < 256 → k < 16 → decodeWord (BitVec.ofNat 16 (a * 16 + k)) =
    if k = 0x0 then .ok .cls else if k = 0xE then .ok .ret else .error (.class0 k)) ∧
  (∀ (x y : Reg) (k : Nat), k < 16 → decodeWord (BitVec.ofNat 16 (0x8000 + x.val * 256 + y.val * 16 + k)) =
    match ([.ldReg x y, .orReg x y, .andReg x y, .xorReg x y, .addReg x y, .subReg x y, .shr x, .subnReg x y] :
      List Instr)[k]? with
    | some i => .ok i
    | none => if k = 0xE then .ok (.shl x) else .error (.class8 k)) ∧
  (∀ (x y : Reg) (k : Nat), k < 16 → decodeWord (BitVec.ofNat 16 (0xE000 + x.val * 256 + y.val * 16 + k)) =
    if k = 0xE then .ok (.skp x) else if k = 0x1 then .ok (.sknp x) else .error (.classE k)) ∧
  (∀ (x : Reg) (k : Nat), k < 256 → decodeWord (BitVec.ofNat 16 (0xF000 + x.val * 256 + k)) =
    match ([(0x07, .ldVxDt x), (0x0A, .ldVxKey x), (0x15, .ldDtVx x), (0x18, .ldStVx x), (0x1E, .addI x),
      (0x29, .ldFont x), (0x33, .ldBcd x), (0x55, .storeRegs x), (0x65, .loadRegs x)] : List (Nat × Instr)).lookup k with
    | some i => .ok i
    | none => .error (.classF k))

/-- Words written out from the spec's patterns, one or more of each family, decode to their instructions. -/
def Obligations.SpecWordsDecode : Prop :=
  decodeWord 0x00E0 = .ok .cls ∧ decodeWord 0xD015 = .ok (.drw 0 1 5) ∧ decodeWord 0x012E = .ok .ret ∧
  decodeWord 0x2300 = .ok (.call 0x300) ∧ decodeWord 0x3342 = .ok (.seImm 3 0x42) ∧
  decodeWord 0x8F15 = .ok (.subReg 15 1) ∧ decodeWord 0xC00F = .ok (.rnd 0 0x0F) ∧
  decodeWord 0xF233 = .ok (.ldBcd 2) ∧ decodeWord 0xF265 = .ok (.loadRegs 2) ∧ decodeWord 0xE3F1 = .ok (.sknp 3) ∧
  decodeWord 0xF30A = .ok (.ldVxKey 3) ∧ decodeWord 0x800F = .error (.class8 0xF)

/-! ### Display -/

/-- R120: CLS leaves every cell dark and changes nothing else, VF included. -/
def Obligations.ClsClearsFramebuffer : Prop :=
  ∀ s : State, ∃ t, exec .cls s = .next t ∧ (∀ px py, px < 64 → py < 32 → t.pixel px py = false) ∧ t = { s with fb := t.fb }

/-- Dxyn on a sprite that raises nothing: each cell is XORed with the sprite bit that lands on it, the anchor wrapping
once, VF is 1 if a set bit landed on a lit cell and 0 otherwise, and nothing else changes. The anchor is read before VF
is cleared (the spec's decision D6, log 9), and off-grid bits fault (D5, log 7). -/
def Obligations.DrwXorsSpriteAndFlagsCollision : Prop :=
  ∀ (s : State) (x y : Reg) (n : Nat), SpriteFits s x y n → ∃ t, exec (.drw x y n) s = .next t ∧
    (∀ px py, px < 64 → py < 32 → t.pixel px py = (s.pixel px py ^^ spriteCovers s x y n px py)) ∧
    ((∃ px py, px < 64 ∧ py < 32 ∧ spriteCovers s x y n px py = true ∧ s.pixel px py = true) → t.v 15 = 1) ∧
    ((∀ px py, px < 64 → py < 32 → spriteCovers s x y n px py = true → s.pixel px py = false) → t.v 15 = 0) ∧
    (∀ r, r ≠ 15 → t.v r = s.v r) ∧ t = { s with V := t.V, fb := t.fb }

/-- Dxyn that raises takes the first raise in program order (the spec's decisions D5, D13; log 7, log 14) and leaves
neither a partial sprite nor a changed VF. -/
def Obligations.DrwTakesFirstRaise : Prop :=
  ∀ (s : State) (x y : Reg) (n : Nat) (f : Fault), firstDrawFault s x y n = some f → Raises (.drw x y n) s f

/-- Two executions of one Dxyn that do not fault, x and y not 15: the framebuffer is as it was before the first, and the
second's VF is 1 exactly if the first lit a cell (turned a dark cell lit); log 30 says how the rule is read. -/
def Obligations.DrawTwiceRestoresFramebuffer : Prop :=
  ∀ (s t u : State) (x y : Reg) (n : Nat), x ≠ 15 → y ≠ 15 → exec (.drw x y n) s = .next t → t.fault = none →
    exec (.drw x y n) t = .next u → u.fault = none →
    (∀ px py, px < 64 → py < 32 → u.pixel px py = s.pixel px py) ∧
    (u.v 15 = 1 ↔ ∃ px py, px < 64 ∧ py < 32 ∧ s.pixel px py = false ∧ t.pixel px py = true)

/-! ### Control flow -/

/-- RET with an empty stack raises StackUnderflow; otherwise SP is decremented, pc becomes the entry there, and the entry
keeps its value. What raising does is the spec's decision D11 (log 1). -/
def Obligations.RetPopsReturnAddress : Prop :=
  ∀ s : State, (s.sp.val = 0 → Raises .ret s .stackUnderflow) ∧
    (s.sp.val ≠ 0 → ∃ t, exec .ret s = .next t ∧ t.sp.val = s.sp.val - 1 ∧ t.pc = s.stack.getD (s.sp.val - 1) 0 ∧
      t = { s with sp := t.sp, pc := t.pc })

/-- R131, R137: JP sets pc to nnn, and JP V0 to V0 + nnn; nothing else changes. -/
def Obligations.JumpsSetPc : Prop :=
  ∀ (s : State) (nnn : Nat), nnn < 4096 →
    (∃ p : Word, p.toNat = nnn ∧ JumpsTo (.jp nnn) s p) ∧
    (∃ p : Word, p.toNat = (s.v 0).toNat + nnn ∧ JumpsTo (.jpV0 nnn) s p)

/-- CALL with a full stack raises StackOverflow; otherwise the entry at SP becomes pc (the return address), SP is
incremented and pc becomes nnn. What raising does is the spec's decision D11 (log 1). -/
def Obligations.CallPushesReturnAddress : Prop :=
  ∀ (s : State) (nnn : Nat), nnn < 4096 →
    (s.sp.val = 16 → Raises (.call nnn) s .stackOverflow) ∧
    (s.sp.val ≠ 16 → ∃ t, exec (.call nnn) s = .next t ∧ t.sp.val = s.sp.val + 1 ∧ t.pc.toNat = nnn ∧
      t.stack.getD s.sp.val 0 = s.pc ∧ (∀ k, k ≠ s.sp.val → t.stack.getD k 0 = s.stack.getD k 0) ∧
      t = { s with sp := t.sp, pc := t.pc, stack := t.stack })

/-- A RET right after a CALL that did not overflow resumes at the call's address + 2 with the SP from before it. -/
def Obligations.CallThenRetResumes : Prop :=
  ∀ (s : State) (nnn : Nat), s.sp.val ≠ 16 → ∃ t u, exec (.call nnn) s = .next t ∧ exec .ret t = .next u ∧
    u = { s with stack := u.stack }

/-- R133 to R136: the four skips add 2 to pc exactly under their condition, and change nothing else. -/
def Obligations.SkipsCompareAndAdvance : Prop :=
  ∀ (s : State) (x y : Reg) (kk : Nat), kk < 256 →
    JumpsTo (.seImm x kk) s (if (s.v x).toNat = kk then s.pc + 2 else s.pc) ∧
    JumpsTo (.sneImm x kk) s (if (s.v x).toNat ≠ kk then s.pc + 2 else s.pc) ∧
    JumpsTo (.seReg x y) s (if s.v x = s.v y then s.pc + 2 else s.pc) ∧
    JumpsTo (.sneReg x y) s (if s.v x ≠ s.v y then s.pc + 2 else s.pc)

/-! ### Registers and arithmetic -/

/-- R140 to R145: the loads, ADD Vx, kk (modulo 256, without a flag) and the bitwise operations write Vx and nothing else;
VF is not reset. -/
def Obligations.LoadsAddImmediateAndLogicSetOneRegister : Prop :=
  ∀ (s : State) (x y : Reg) (kk : Nat), kk < 256 →
    (∃ b : Byte, b.toNat = kk ∧ SetsReg (.ldImm x kk) s x b) ∧
    (∃ b : Byte, b.toNat = ((s.v x).toNat + kk) % 256 ∧ SetsReg (.addImm x kk) s x b) ∧
    SetsReg (.ldReg x y) s x (s.v y) ∧
    SetsReg (.orReg x y) s x (s.v x ||| s.v y) ∧
    SetsReg (.andReg x y) s x (s.v x &&& s.v y) ∧
    SetsReg (.xorReg x y) s x (s.v x ^^^ s.v y)

/-- ADD Vx, Vy: Vx is the sum modulo 256 of the old values, and VF the carry. With VF as an operand (the sum overwrites the
carry for x = 15, and uses the old VF for y = 15) this is the spec's decision D2 (log 8). -/
def Obligations.AddSetsSumAndCarry : Prop :=
  ∀ (s : State) (x y : Reg), ∃ b : Byte, b.toNat = ((s.v x).toNat + (s.v y).toNat) % 256 ∧
    SetsRegAndFlag (.addReg x y) s x b (if (s.v x).toNat + (s.v y).toNat > 255 then 1 else 0)

/-- SUB and SUBN with neither operand VF: the difference modulo 256, and VF = 1 exactly if the minuend is strictly the
greater. -/
def Obligations.SubtractionsSetDifferenceAndNotBorrow : Prop :=
  ∀ (s : State) (x y : Reg), x ≠ 15 → y ≠ 15 →
    (∃ b : Byte, b.toNat = ((s.v x).toNat + 256 - (s.v y).toNat) % 256 ∧
      SetsRegAndFlag (.subReg x y) s x b (if (s.v x).toNat > (s.v y).toNat then 1 else 0)) ∧
    (∃ b : Byte, b.toNat = ((s.v y).toNat + 256 - (s.v x).toNat) % 256 ∧
      SetsRegAndFlag (.subnReg x y) s x b (if (s.v y).toNat > (s.v x).toNat then 1 else 0))

/-- SUB and SUBN with VF an operand, by the sequential reading (the spec's decision D2, log 8): the flag is written first,
and the subtraction reads it. -/
def Obligations.SubtractionsOnVfReadTheFlag : Prop :=
  ∀ (s : State) (r : Reg), r ≠ 15 →
    SetsReg (.subReg 15 r) s 15 ((if (s.v 15).toNat > (s.v r).toNat then 1 else 0) - s.v r) ∧
    SetsReg (.subnReg 15 r) s 15 (s.v r - (if (s.v r).toNat > (s.v 15).toNat then 1 else 0)) ∧
    SetsRegAndFlag (.subReg r 15) s r (s.v r - (if (s.v r).toNat > (s.v 15).toNat then 1 else 0))
      (if (s.v r).toNat > (s.v 15).toNat then 1 else 0) ∧
    SetsRegAndFlag (.subnReg r 15) s r ((if (s.v 15).toNat > (s.v r).toNat then 1 else 0) - s.v r)
      (if (s.v 15).toNat > (s.v r).toNat then 1 else 0) ∧
    SetsReg (.subReg 15 15) s 15 0 ∧ SetsReg (.subnReg 15 15) s 15 0

/-- SHR and SHL shift Vx by one, logically, and VF is the bit shifted out; on VF itself the final value is 0 for SHR and 2
or 0 for SHL (the spec's decision D2, log 8). -/
def Obligations.ShiftsSetResultAndShiftedOutBit : Prop :=
  (∀ (s : State) (x : Reg), x ≠ 15 →
    (∃ b f : Byte, b.toNat = (s.v x).toNat / 2 ∧ f.toNat = (s.v x).toNat % 2 ∧ SetsRegAndFlag (.shr x) s x b f) ∧
    (∃ b f : Byte, b.toNat = (s.v x).toNat * 2 % 256 ∧ f.toNat = (s.v x).toNat / 128 ∧
      SetsRegAndFlag (.shl x) s x b f)) ∧
  ∀ s : State, SetsReg (.shr 15) s 15 0 ∧ SetsReg (.shl 15) s 15 (if (s.v 15).toNat ≥ 128 then 2 else 0)

/-- RND takes one draw, whatever kk is, and Vx becomes the drawn byte AND kk, so that the bits outside kk are 0. The byte is the free value of the machine's own random
source at the model's own count of draws (log 3); nothing is assumed of it. -/
def Obligations.RndMasksOneDraw : Prop :=
  ∀ (s : State) (x : Reg) (kk : Nat), kk < 256 → ∃ t, exec (.rnd x kk) s = .next t ∧
    t.v x = Config.freeDraw s.source s.draws &&& BitVec.ofNat 8 kk ∧ (∀ k, kk.testBit k = false → (t.v x).getLsbD k = false) ∧
    t.draws = s.draws + 1 ∧ (∀ r, r ≠ x → t.v r = s.v r) ∧ t = { s with V := t.V, draws := t.draws }

/-- VF after a flag-writing instruction on another register, or after any Dxyn, is 0 or 1. -/
def Obligations.FlagIsZeroOrOne : Prop :=
  ∀ (s t : State) (x y : Reg) (n : Nat) (i : Instr), s.fault = none →
    (x ≠ 15 ∧ i ∈ [.addReg x y, .subReg x y, .subnReg x y, .shr x, .shl x]) ∨ i = .drw x y n →
    exec i s = .next t → t.fault = none → t.v 15 = 0 ∨ t.v 15 = 1

/-! ### Index and memory -/

/-- R160, R162: LD I sets I to nnn; LD F sets it to 0x050 + 5·Vx, not masked; nothing else changes. -/
def Obligations.IndexLoadsSetI : Prop :=
  ∀ (s : State) (x : Reg) (nnn : Nat), nnn < 4096 →
    (∃ t, exec (.ldI nnn) s = .next t ∧ t.I.toNat = nnn ∧ t = { s with I := t.I }) ∧
    (∃ t, exec (.ldFont x) s = .next t ∧ t.I.toNat = 0x050 + (s.v x).toNat * 5 ∧ t = { s with I := t.I })

/-- ADD I, Vx adds modulo 65536 (the spec's decision D8, log 11) and writes no flag. -/
def Obligations.AddIndexWraps : Prop :=
  ∀ (s : State) (x : Reg), ∃ t, exec (.addI x) s = .next t ∧
    t.I.toNat = (s.I.toNat + (s.v x).toNat) % 65536 ∧ t = { s with I := t.I }

/-- LD B stores the hundreds, tens and ones of Vx at I, I + 1 and I + 2 and no other byte; if one of the three addresses is
past memory it raises at the first such, and stores nothing (the bound and what raising does are the spec's decisions D7
and D11; log 10, log 1). -/
def Obligations.BcdStoresThreeDigits : Prop :=
  ∀ (s : State) (x : Reg), s.mem.wf = true →
    (s.I.toNat + 2 < 4096 → ∃ t, exec (.ldBcd x) s = .next t ∧
      (t.mem.read s.I.toNat).toNat = (s.v x).toNat / 100 ∧
      (t.mem.read (s.I.toNat + 1)).toNat = (s.v x).toNat / 10 % 10 ∧
      (t.mem.read (s.I.toNat + 2)).toNat = (s.v x).toNat % 10 ∧
      (∀ a, a < s.I.toNat ∨ s.I.toNat + 3 ≤ a → t.mem.read a = s.mem.read a) ∧
      t.mem.wf = true ∧ t = { s with mem := t.mem }) ∧
    (4096 ≤ s.I.toNat + 2 →
      Raises (.ldBcd x) s (.memoryOutOfBounds .write (if s.I.toNat < 4096 then 4096 else s.I.toNat)))

/-- LD [I], Vx stores V0 to V(x-1) at I, I + 1, ... and no other byte, and leaves I (`LS_RANGE = Exclusive`, the spec's
decisions D3 and D4; log 6, log 13); with x = 0 it does nothing; past memory it raises at the first such address and
stores nothing. -/
def Obligations.StoreRegistersExclusive : Prop :=
  ∀ (s : State) (x : Reg), s.mem.wf = true →
    (x.val = 0 ∨ s.I.toNat + x.val ≤ 4096 → ∃ t, exec (.storeRegs x) s = .next t ∧
      (∀ r : Reg, r < x → t.mem.read (s.I.toNat + r.val) = s.v r) ∧
      (∀ a, a < s.I.toNat ∨ s.I.toNat + x.val ≤ a → t.mem.read a = s.mem.read a) ∧
      t.mem.wf = true ∧ t = { s with mem := t.mem }) ∧
    (x.val ≠ 0 → 4096 < s.I.toNat + x.val →
      Raises (.storeRegs x) s (.memoryOutOfBounds .write (if s.I.toNat < 4096 then 4096 else s.I.toNat)))

/-- LD Vx, [I] loads V0 to V(x-1) from I, I + 1, ... and no other register, and leaves I (`LS_RANGE = Exclusive`, the
spec's decisions D3 and D4; log 6, log 13); past memory it raises at the first such address and loads nothing. -/
def Obligations.LoadRegistersExclusive : Prop :=
  ∀ (s : State) (x : Reg),
    (x.val = 0 ∨ s.I.toNat + x.val ≤ 4096 → ∃ t, exec (.loadRegs x) s = .next t ∧
      (∀ r : Reg, r < x → t.v r = s.mem.read (s.I.toNat + r.val)) ∧ (∀ r : Reg, x ≤ r → t.v r = s.v r) ∧
      t = { s with V := t.V }) ∧
    (x.val ≠ 0 → 4096 < s.I.toNat + x.val →
      Raises (.loadRegs x) s (.memoryOutOfBounds .read (if s.I.toNat < 4096 then 4096 else s.I.toNat)))

/-- The round trip of Fx55 and Fx65: what V0 to V(x-1) were when stored they are after a later load from the same memory
and I, whatever the registers were in between. That Vx and the registers above it are not loaded is `LS_RANGE = Exclusive`
(the spec's decision D3, log 6), and that the store leaves I for the load is its decision D4 (log 13). -/
def Obligations.StoreThenLoadRestoresRegisters : Prop :=
  ∀ (s t u v : State) (x : Reg), s.mem.wf = true → s.fault = none → exec (.storeRegs x) s = .next t → t.fault = none →
    u.mem = t.mem → u.I = t.I → u.fault = none → exec (.loadRegs x) u = .next v → v.fault = none ∧
      ∀ r : Reg, v.v r = if r < x then s.v r else u.v r

/-- A fetch sees what Fx55 stored: after V0 and V1 are stored at I, a fetch at I reads the word of those two bytes (the
spec's decision D17, log 16). -/
def Obligations.FetchSeesStoredRegisters : Prop :=
  ∀ (s t : State) (x : Reg), s.mem.wf = true → 2 ≤ x.val → s.I.toNat + x.val ≤ 4096 → exec (.storeRegs x) s = .next t →
    ∃ w, ({ t with pc := s.I } : State).fetch = .ok w ∧ w.toNat = (s.v 0).toNat * 256 + (s.v 1).toNat

/-- Memories in the canonical form that read the same at every address are the same data. -/
def Obligations.EqualReadsGiveEqualMemories : Prop :=
  ∀ m m' : Memory, m.wf = true → m'.wf = true → (∀ a, m.read a = m'.read a) → m = m'

/-! ### Keypad and timers -/

/-- SKP and SKNP add 2 to pc exactly if key Vx is, or is not, pressed; an index above 15 raises (the spec's decisions D9,
D11; log 12, log 1). -/
def Obligations.KeySkipsTestOneKey : Prop :=
  ∀ (s : State) (x : Reg),
    ((s.v x).toNat < 16 →
      JumpsTo (.skp x) s (if s.key.getD (s.v x).toNat false = true then s.pc + 2 else s.pc) ∧
      JumpsTo (.sknp x) s (if s.key.getD (s.v x).toNat false = false then s.pc + 2 else s.pc)) ∧
    (16 ≤ (s.v x).toNat →
      Raises (.skp x) s (.keypadIndexOutOfRange (s.v x).toNat) ∧
      Raises (.sknp x) s (.keypadIndexOutOfRange (s.v x).toNat))

/-- LD Vx, K with a key pressed stores the lowest pressed index; with none pressed it only takes pc back by 2. The test is
of the level (the spec's decision D18, log 17). -/
def Obligations.KeyWaitTakesLowestKeyOrRepeats : Prop :=
  ∀ (s : State) (x : Reg),
    (∀ k : Fin 16, s.key[k] = true → (∀ j : Fin 16, j < k → s.key[j] = false) →
      ∃ b : Byte, b.toNat = k.val ∧ SetsReg (.ldVxKey x) s x b) ∧
    ((∀ k : Fin 16, s.key[k] = false) → JumpsTo (.ldVxKey x) s (s.pc - 2))

/-- While no key is pressed, any number of cycles leaves the machine at its LD Vx, K: only the opcode register and the
decaying timers change. -/
def Obligations.KeyWaitStallsAcrossCycles : Prop :=
  ∀ (n : Nat) (s : State) (w : Word) (x : Reg), s.fault = none → (∀ k : Fin 16, s.key[k] = false) → s.fetch = .ok w →
    decodeWord w = .ok (.ldVxKey x) →
    ∃ t, Sys2Proof.core.run n s = .next t ∧ t.dt.toNat = s.dt.toNat - n ∧ t.st.toNat = s.st.toNat - n ∧
      t = { s with op := t.op, dt := t.dt, st := t.st }

/-- R173, R175, R176: LD Vx, DT reads the delay timer; LD DT, Vx and LD ST, Vx write a timer, whose decay at the end of
the same cycle then leaves the value less one, or 0. -/
def Obligations.TimerMovesReadAndWrite : Prop :=
  ∀ (s : State) (x : Reg),
    SetsReg (.ldVxDt x) s x s.dt ∧
    (∃ t, exec (.ldDtVx x) s = .next t ∧ t.dt = s.v x ∧ t.decay.dt.toNat = (s.v x).toNat - 1 ∧ t = { s with dt := t.dt }) ∧
    (∃ t, exec (.ldStVx x) s = .next t ∧ t.st = s.v x ∧ t.decay.st.toNat = (s.v x).toNat - 1 ∧ t = { s with st := t.st })

/-- Over any run of n cycles none of which executes LD DT, Vx the delay timer goes down by n, not below 0. -/
def Obligations.DelayTimerCountsDown : Prop :=
  ∀ (n : Nat) (s t : State), Sys2Proof.core.run n s = .next t → t.fault = none →
    (∀ k u w x, k < n → Sys2Proof.core.run k s = .next u → u.fetch = .ok w → decodeWord w ≠ .ok (.ldDtVx x)) →
    t.dt.toNat = s.dt.toNat - n

/-! ### Whole-machine frames -/

/-- An instruction writes no register but those of the register table of 10_state.md. -/
def Obligations.OnlyListedRegistersAreWritten : Prop :=
  ∀ (i : Instr) (s t : State) (r : Reg), exec i s = .next t → ¬ writesReg i r → t.v r = s.v r

/-- Only CALL and RET change SP or a stack entry. -/
def Obligations.OnlyCallAndRetTouchStack : Prop :=
  ∀ (i : Instr) (s t : State), exec i s = .next t → (∀ nnn, i ≠ .call nnn) → i ≠ .ret → t.sp = s.sp ∧ t.stack = s.stack

/-- Only LD I, ADD I and LD F change I (no memory access writes it back: the spec's decision D4, log 13), only CLS and DRW
the framebuffer, and only LD B and LD [I], Vx memory. -/
def Obligations.OnlyTheirInstructionsWriteIndexDisplayMemory : Prop :=
  ∀ (i : Instr) (s t : State), exec i s = .next t →
    ((∀ nnn, i ≠ .ldI nnn) → (∀ x, i ≠ .addI x) → (∀ x, i ≠ .ldFont x) → t.I = s.I) ∧
    (i ≠ .cls → (∀ x y n, i ≠ .drw x y n) → t.fb = s.fb) ∧
    ((∀ x, i ≠ .ldBcd x) → (∀ x, i ≠ .storeRegs x) → t.mem = s.mem)

/-- No cycle changes the keypad, a host write sets the one key and nothing else, and an instruction other than SKP, SKNP
and LD Vx, K does not depend on the keypad. -/
def Obligations.KeypadIsHostWrittenInput : Prop :=
  (∀ s t : State, step s = .next t → t.key = s.key) ∧
  (∀ (s : State) (k : Fin 16) (b : Bool), (s.writeKey k b).key[k] = b ∧
    (∀ j : Fin 16, j ≠ k → (s.writeKey k b).key[j] = s.key[j]) ∧
    s.writeKey k b = { s with key := (s.writeKey k b).key }) ∧
  ∀ (i : Instr) (s t : State) (keys : Vector Bool 16), (∀ x, i ≠ .skp x) → (∀ x, i ≠ .sknp x) → (∀ x, i ≠ .ldVxKey x) →
    exec i s = .next t → exec i { s with key := keys } = .next { t with key := keys }

/-- No instruction reads the sound timer: with another value in ST every instruction gives the same next state, but for
ST itself, which only LD ST, Vx writes. -/
def Obligations.NoInstructionReadsSoundTimer : Prop :=
  ∀ (i : Instr) (s t : State) (b : Byte), exec i s = .next t →
    ((∀ x, i ≠ .ldStVx x) → exec i { s with st := b } = .next { t with st := b }) ∧
    (∀ x, i = .ldStVx x → exec i { s with st := b } = .next t)

/-! ### Host transactions -/

/-- load writes the image at 0x200 and changes nothing else; an image longer than 3584 bytes is refused with the state
unchanged (the spec's decision D19, log 18). -/
def Obligations.LoadWritesOnlyRomRegion : Prop :=
  ∀ (s : State) (bytes : List Byte), s.mem.wf = true →
    (3584 < bytes.length → s.load bytes = (s, .loadTooLarge)) ∧
    (bytes.length ≤ 3584 → ∃ t, s.load bytes = (t, .ok) ∧
      (∀ k, k < bytes.length → t.mem.read (0x200 + k) = bytes.getD k 0) ∧
      (∀ a, a < 0x200 ∨ 0x200 + bytes.length ≤ a → t.mem.read a = s.mem.read a) ∧
      t.mem.wf = true ∧ t = { s with mem := t.mem })

/-- What cycle() returns to the host: Ok exactly if the machine is not faulted after it, and otherwise the recorded fault
(the spec's decision D11, log 1). -/
def Obligations.CycleReturnsRecordedFault : Prop :=
  ∀ s : State, (s.cycle.2 = .ok ↔ s.cycle.1.fault = none) ∧
    (∀ f, s.cycle.2 = .fault f ↔ ∃ r, s.cycle.1.fault = some r ∧ r.fault = f) ∧ ∀ q, s.cycle.2 ≠ .refused q

/-- R43: the host reads 2048 cells, cell (px, py) at index py·64 + px. -/
def Obligations.FramebufferReadIsRowMajor : Prop :=
  ∀ s : State, s.readFramebuffer.length = 2048 ∧
    ∀ px py, px < 64 → py < 32 → s.readFramebuffer.getD (py * 64 + px) false = s.pixel px py

/-- A cycle of any machine that is not faulted with two zero bytes at pc, whatever is on the screen: every cell is dark
after it, pc is 2 further, the opcode register holds 0, the timers have decayed, and nothing else has changed. -/
def Obligations.ZeroWordClearsScreenAndAdvances : Prop :=
  ∀ s : State, s.fault = none → s.pc.toNat + 1 < 4096 → s.mem.read s.pc.toNat = 0 → s.mem.read (s.pc.toNat + 1) = 0 →
    ∃ t, step s = .next t ∧ (∀ px py, px < 64 → py < 32 → t.pixel px py = false) ∧ t.pc.toNat = s.pc.toNat + 2 ∧
      t.op = 0 ∧ t.dt = lessOne s.dt ∧ t.st = lessOne s.st ∧
      t = { s with fb := t.fb, pc := t.pc, op := t.op, dt := t.dt, st := t.st }

/-- From any state that is not faulted and whose memory is zero from pc to its end (with nothing loaded, the state after
reset), whatever is on the screen: n cycles that stay inside memory clear the screen and advance pc by 2 each; and where
they bring pc to the last byte or the end of memory, the next cycle takes the fetch fault at 0x1000 and changes nothing else
(the spec derives the run; the fault is its decisions D7 and D11, log 10 and log 1). -/
def Obligations.ZeroMemoryRunsIntoFetchFault : Prop :=
  ∀ (n : Nat) (s : State), s.fault = none → (∀ a, s.pc.toNat ≤ a → a < 4096 → s.mem.read a = 0) →
    s.pc.toNat + 2 * n ≤ 4096 →
    ∃ t, Sys2Proof.core.run n s = .next t ∧ t.pc.toNat = s.pc.toNat + 2 * n ∧ t.dt.toNat = s.dt.toNat - n ∧
      t.st.toNat = s.st.toNat - n ∧ (0 < n → t.op = 0 ∧ ∀ px py, px < 64 → py < 32 → t.pixel px py = false) ∧
      t = { s with fb := t.fb, pc := t.pc, op := t.op, dt := t.dt, st := t.st } ∧
      (4095 ≤ t.pc.toNat → step t = .next { t with fault := some ⟨.memoryOutOfBounds .fetch 0x1000, t.pc, none⟩ })
end

