-- ==== Sys2Proof/Laws/Encoding.lean ====
section
/-! SUPPORT. The masks of R81 and R83 as numbers: what `op & mask` is in terms of the opcode's fields. -/

namespace Sys2Proof

theorem Word.cls_eq (w : Word) : w.cls = w.toNat / 4096 := by
  have := w.isLt
  simp only [Word.cls, Word.bitsAt]
  omega

theorem Word.kk_eq (w : Word) : w.kk = w.toNat % 256 := by simp [Word.kk, Word.bitsAt]

theorem Word.n_eq (w : Word) : w.n = w.toNat % 16 := by simp [Word.n, Word.bitsAt]

theorem Word.nnn_eq (w : Word) : w.nnn = w.toNat % 4096 := by simp [Word.nnn, Word.bitsAt]

theorem Word.x_val (w : Word) : w.x.val = w.toNat / 256 % 16 := by simp [Word.x, Word.bitsAt]

theorem Word.y_val (w : Word) : w.y.val = w.toNat / 16 % 16 := by simp [Word.y, Word.bitsAt]

/-- Masking the high bits keeps the number above `2 ^ k`. -/
theorem toNat_and_high (w : Word) (k : Nat) (m : Nat) (hm : m = (2 ^ (16 - k) - 1) <<< k) (hk : k ≤ 16) :
    w.toNat &&& m = w.toNat / 2 ^ k * 2 ^ k := by
  subst hm
  have hw := w.isLt
  refine Nat.eq_of_testBit_eq fun j => ?_
  rw [Nat.testBit_and, Nat.testBit_shiftLeft, ← Nat.shiftLeft_eq, Nat.testBit_shiftLeft, Nat.testBit_div_two_pow,
    Nat.testBit_two_pow_sub_one]
  by_cases h : k ≤ j
  · rw [show j - k + k = j by omega]
    by_cases hj : j < 16
    · simp [h, show j - k < 16 - k by omega]
    · have : w.toNat.testBit j = false := Nat.testBit_lt_two_pow (lt_of_lt_of_le hw (Nat.pow_le_pow_right (by omega) (by omega)))
      simp [this]
  · simp [h]

/-- `op & 0xF000` is the class in place. -/
theorem toNat_and_F000 (w : Word) : (w &&& 0xF000).toNat = w.cls * 4096 := by
  rw [BitVec.toNat_and, Word.cls_eq]
  exact toNat_and_high w 12 _ (by decide) (by omega)

/-- A mask of class and low bits reads both. -/
theorem toNat_and_F000_low (w : Word) (k : Nat) (hk : k ≤ 12) :
    w.toNat &&& (0xF000 ||| (2 ^ k - 1)) = w.cls * 4096 + w.toNat % 2 ^ k := by
  rw [Nat.and_or_distrib_left, Nat.and_two_pow_sub_one_eq_mod, show (0xF000 : Nat) = (2 ^ (16 - 12) - 1) <<< 12 by decide,
    toNat_and_high w 12 _ rfl (by omega), Word.cls_eq]
  have h1 : w.toNat % 2 ^ k < 2 ^ k := Nat.mod_lt _ (Nat.two_pow_pos k)
  have h2 : 2 ^ k ≤ 2 ^ 12 := Nat.pow_le_pow_right (by omega) hk
  rw [← Nat.shiftLeft_eq, ← Nat.shiftLeft_add_eq_or_of_lt (by omega), Nat.shiftLeft_eq]
  rfl

/-- `op & 0xF00F` is the class in place and the bottom nibble. -/
theorem toNat_and_F00F (w : Word) : (w &&& 0xF00F).toNat = w.cls * 4096 + w.n := by
  rw [BitVec.toNat_and, Word.n_eq]
  exact toNat_and_F000_low w 4 (by omega)

/-- `op & 0xF0FF` is the class in place and the bottom byte. -/
theorem toNat_and_F0FF (w : Word) : (w &&& 0xF0FF).toNat = w.cls * 4096 + w.kk := by
  rw [BitVec.toNat_and, Word.kk_eq]
  exact toNat_and_F000_low w 8 (by omega)

end Sys2Proof
end

