-- ==== Sys2Proof/Laws/State.lean ====
section
/-! SUPPORT. One lemma per field per update, so that no proof unfolds a record update; and reads of registers and cells
after an update. -/

namespace Sys2Proof.Machine

variable (s : State)

/-! ### setV -/

@[simp] theorem State.setV_V (x : Reg) (b : Byte) : (s.setV x b).V = s.V.set x b := rfl
@[simp] theorem State.setV_I (x : Reg) (b : Byte) : (s.setV x b).I = s.I := rfl
@[simp] theorem State.setV_pc (x : Reg) (b : Byte) : (s.setV x b).pc = s.pc := rfl
@[simp] theorem State.setV_sp (x : Reg) (b : Byte) : (s.setV x b).sp = s.sp := rfl
@[simp] theorem State.setV_stack (x : Reg) (b : Byte) : (s.setV x b).stack = s.stack := rfl
@[simp] theorem State.setV_dt (x : Reg) (b : Byte) : (s.setV x b).dt = s.dt := rfl
@[simp] theorem State.setV_st (x : Reg) (b : Byte) : (s.setV x b).st = s.st := rfl
@[simp] theorem State.setV_mem (x : Reg) (b : Byte) : (s.setV x b).mem = s.mem := rfl
@[simp] theorem State.setV_fb (x : Reg) (b : Byte) : (s.setV x b).fb = s.fb := rfl
@[simp] theorem State.setV_key (x : Reg) (b : Byte) : (s.setV x b).key = s.key := rfl
@[simp] theorem State.setV_op (x : Reg) (b : Byte) : (s.setV x b).op = s.op := rfl
@[simp] theorem State.setV_fault (x : Reg) (b : Byte) : (s.setV x b).fault = s.fault := rfl
@[simp] theorem State.setV_source (x : Reg) (b : Byte) : (s.setV x b).source = s.source := rfl
@[simp] theorem State.setV_draws (x : Reg) (b : Byte) : (s.setV x b).draws = s.draws := rfl

/-! ### setFlag -/

@[simp] theorem State.setFlag_V (b : Byte) : (s.setFlag b).V = s.V.set 15 b := rfl
@[simp] theorem State.setFlag_I (b : Byte) : (s.setFlag b).I = s.I := rfl
@[simp] theorem State.setFlag_pc (b : Byte) : (s.setFlag b).pc = s.pc := rfl
@[simp] theorem State.setFlag_sp (b : Byte) : (s.setFlag b).sp = s.sp := rfl
@[simp] theorem State.setFlag_stack (b : Byte) : (s.setFlag b).stack = s.stack := rfl
@[simp] theorem State.setFlag_dt (b : Byte) : (s.setFlag b).dt = s.dt := rfl
@[simp] theorem State.setFlag_st (b : Byte) : (s.setFlag b).st = s.st := rfl
@[simp] theorem State.setFlag_mem (b : Byte) : (s.setFlag b).mem = s.mem := rfl
@[simp] theorem State.setFlag_fb (b : Byte) : (s.setFlag b).fb = s.fb := rfl
@[simp] theorem State.setFlag_key (b : Byte) : (s.setFlag b).key = s.key := rfl
@[simp] theorem State.setFlag_op (b : Byte) : (s.setFlag b).op = s.op := rfl
@[simp] theorem State.setFlag_fault (b : Byte) : (s.setFlag b).fault = s.fault := rfl
@[simp] theorem State.setFlag_source (b : Byte) : (s.setFlag b).source = s.source := rfl
@[simp] theorem State.setFlag_draws (b : Byte) : (s.setFlag b).draws = s.draws := rfl

/-! ### setI -/

@[simp] theorem State.setI_V (n : Nat) : (s.setI n).V = s.V := rfl
@[simp] theorem State.setI_I (n : Nat) : (s.setI n).I = BitVec.ofNat 16 n := rfl
@[simp] theorem State.setI_pc (n : Nat) : (s.setI n).pc = s.pc := rfl
@[simp] theorem State.setI_sp (n : Nat) : (s.setI n).sp = s.sp := rfl
@[simp] theorem State.setI_stack (n : Nat) : (s.setI n).stack = s.stack := rfl
@[simp] theorem State.setI_dt (n : Nat) : (s.setI n).dt = s.dt := rfl
@[simp] theorem State.setI_st (n : Nat) : (s.setI n).st = s.st := rfl
@[simp] theorem State.setI_mem (n : Nat) : (s.setI n).mem = s.mem := rfl
@[simp] theorem State.setI_fb (n : Nat) : (s.setI n).fb = s.fb := rfl
@[simp] theorem State.setI_key (n : Nat) : (s.setI n).key = s.key := rfl
@[simp] theorem State.setI_op (n : Nat) : (s.setI n).op = s.op := rfl
@[simp] theorem State.setI_fault (n : Nat) : (s.setI n).fault = s.fault := rfl
@[simp] theorem State.setI_source (n : Nat) : (s.setI n).source = s.source := rfl
@[simp] theorem State.setI_draws (n : Nat) : (s.setI n).draws = s.draws := rfl

/-! ### setPc -/

@[simp] theorem State.setPc_V (n : Nat) : (s.setPc n).V = s.V := rfl
@[simp] theorem State.setPc_I (n : Nat) : (s.setPc n).I = s.I := rfl
@[simp] theorem State.setPc_pc (n : Nat) : (s.setPc n).pc = BitVec.ofNat 16 n := rfl
@[simp] theorem State.setPc_sp (n : Nat) : (s.setPc n).sp = s.sp := rfl
@[simp] theorem State.setPc_stack (n : Nat) : (s.setPc n).stack = s.stack := rfl
@[simp] theorem State.setPc_dt (n : Nat) : (s.setPc n).dt = s.dt := rfl
@[simp] theorem State.setPc_st (n : Nat) : (s.setPc n).st = s.st := rfl
@[simp] theorem State.setPc_mem (n : Nat) : (s.setPc n).mem = s.mem := rfl
@[simp] theorem State.setPc_fb (n : Nat) : (s.setPc n).fb = s.fb := rfl
@[simp] theorem State.setPc_key (n : Nat) : (s.setPc n).key = s.key := rfl
@[simp] theorem State.setPc_op (n : Nat) : (s.setPc n).op = s.op := rfl
@[simp] theorem State.setPc_fault (n : Nat) : (s.setPc n).fault = s.fault := rfl
@[simp] theorem State.setPc_source (n : Nat) : (s.setPc n).source = s.source := rfl
@[simp] theorem State.setPc_draws (n : Nat) : (s.setPc n).draws = s.draws := rfl

/-! ### latch -/

@[simp] theorem State.latch_V (w : Word) : (s.latch w).V = s.V := rfl
@[simp] theorem State.latch_I (w : Word) : (s.latch w).I = s.I := rfl
@[simp] theorem State.latch_pc (w : Word) : (s.latch w).pc = BitVec.ofNat 16 (s.pc.toNat + 2) := rfl
@[simp] theorem State.latch_sp (w : Word) : (s.latch w).sp = s.sp := rfl
@[simp] theorem State.latch_stack (w : Word) : (s.latch w).stack = s.stack := rfl
@[simp] theorem State.latch_dt (w : Word) : (s.latch w).dt = s.dt := rfl
@[simp] theorem State.latch_st (w : Word) : (s.latch w).st = s.st := rfl
@[simp] theorem State.latch_mem (w : Word) : (s.latch w).mem = s.mem := rfl
@[simp] theorem State.latch_fb (w : Word) : (s.latch w).fb = s.fb := rfl
@[simp] theorem State.latch_key (w : Word) : (s.latch w).key = s.key := rfl
@[simp] theorem State.latch_op (w : Word) : (s.latch w).op = w := rfl
@[simp] theorem State.latch_fault (w : Word) : (s.latch w).fault = s.fault := rfl
@[simp] theorem State.latch_source (w : Word) : (s.latch w).source = s.source := rfl
@[simp] theorem State.latch_draws (w : Word) : (s.latch w).draws = s.draws := rfl

/-! ### decay -/

@[simp] theorem State.decay_V : (s.decay).V = s.V := rfl
@[simp] theorem State.decay_I : (s.decay).I = s.I := rfl
@[simp] theorem State.decay_pc : (s.decay).pc = s.pc := rfl
@[simp] theorem State.decay_sp : (s.decay).sp = s.sp := rfl
@[simp] theorem State.decay_stack : (s.decay).stack = s.stack := rfl
@[simp] theorem State.decay_dt : (s.decay).dt = decayed s.dt := rfl
@[simp] theorem State.decay_st : (s.decay).st = decayed s.st := rfl
@[simp] theorem State.decay_mem : (s.decay).mem = s.mem := rfl
@[simp] theorem State.decay_fb : (s.decay).fb = s.fb := rfl
@[simp] theorem State.decay_key : (s.decay).key = s.key := rfl
@[simp] theorem State.decay_op : (s.decay).op = s.op := rfl
@[simp] theorem State.decay_fault : (s.decay).fault = s.fault := rfl
@[simp] theorem State.decay_source : (s.decay).source = s.source := rfl
@[simp] theorem State.decay_draws : (s.decay).draws = s.draws := rfl

/-! ### abort -/

@[simp] theorem State.abort_V (r : FaultRecord) : (s.abort r).V = s.V := rfl
@[simp] theorem State.abort_I (r : FaultRecord) : (s.abort r).I = s.I := rfl
@[simp] theorem State.abort_pc (r : FaultRecord) : (s.abort r).pc = s.pc := rfl
@[simp] theorem State.abort_sp (r : FaultRecord) : (s.abort r).sp = s.sp := rfl
@[simp] theorem State.abort_stack (r : FaultRecord) : (s.abort r).stack = s.stack := rfl
@[simp] theorem State.abort_dt (r : FaultRecord) : (s.abort r).dt = s.dt := rfl
@[simp] theorem State.abort_st (r : FaultRecord) : (s.abort r).st = s.st := rfl
@[simp] theorem State.abort_mem (r : FaultRecord) : (s.abort r).mem = s.mem := rfl
@[simp] theorem State.abort_fb (r : FaultRecord) : (s.abort r).fb = s.fb := rfl
@[simp] theorem State.abort_key (r : FaultRecord) : (s.abort r).key = s.key := rfl
@[simp] theorem State.abort_op (r : FaultRecord) : (s.abort r).op = s.op := rfl
@[simp] theorem State.abort_fault (r : FaultRecord) : (s.abort r).fault = some r := rfl
@[simp] theorem State.abort_source (r : FaultRecord) : (s.abort r).source = s.source := rfl
@[simp] theorem State.abort_draws (r : FaultRecord) : (s.abort r).draws = s.draws := rfl

/-! ### takeFault -/

@[simp] theorem State.takeFault_V (f : Fault) : (s.takeFault f).V = s.V := rfl
@[simp] theorem State.takeFault_I (f : Fault) : (s.takeFault f).I = s.I := rfl
@[simp] theorem State.takeFault_pc (f : Fault) : (s.takeFault f).pc = s.pc - 2 := rfl
@[simp] theorem State.takeFault_sp (f : Fault) : (s.takeFault f).sp = s.sp := rfl
@[simp] theorem State.takeFault_stack (f : Fault) : (s.takeFault f).stack = s.stack := rfl
@[simp] theorem State.takeFault_dt (f : Fault) : (s.takeFault f).dt = s.dt := rfl
@[simp] theorem State.takeFault_st (f : Fault) : (s.takeFault f).st = s.st := rfl
@[simp] theorem State.takeFault_mem (f : Fault) : (s.takeFault f).mem = s.mem := rfl
@[simp] theorem State.takeFault_fb (f : Fault) : (s.takeFault f).fb = s.fb := rfl
@[simp] theorem State.takeFault_key (f : Fault) : (s.takeFault f).key = s.key := rfl
@[simp] theorem State.takeFault_op (f : Fault) : (s.takeFault f).op = s.op := rfl
@[simp] theorem State.takeFault_fault (f : Fault) : (s.takeFault f).fault = some ⟨f, s.pc - 2, some s.op⟩ := rfl
@[simp] theorem State.takeFault_source (f : Fault) : (s.takeFault f).source = s.source := rfl
@[simp] theorem State.takeFault_draws (f : Fault) : (s.takeFault f).draws = s.draws := rfl

/-! ### takeFetchFault -/

@[simp] theorem State.takeFetchFault_V (f : Fault) : (s.takeFetchFault f).V = s.V := rfl
@[simp] theorem State.takeFetchFault_I (f : Fault) : (s.takeFetchFault f).I = s.I := rfl
@[simp] theorem State.takeFetchFault_pc (f : Fault) : (s.takeFetchFault f).pc = s.pc := rfl
@[simp] theorem State.takeFetchFault_sp (f : Fault) : (s.takeFetchFault f).sp = s.sp := rfl
@[simp] theorem State.takeFetchFault_stack (f : Fault) : (s.takeFetchFault f).stack = s.stack := rfl
@[simp] theorem State.takeFetchFault_dt (f : Fault) : (s.takeFetchFault f).dt = s.dt := rfl
@[simp] theorem State.takeFetchFault_st (f : Fault) : (s.takeFetchFault f).st = s.st := rfl
@[simp] theorem State.takeFetchFault_mem (f : Fault) : (s.takeFetchFault f).mem = s.mem := rfl
@[simp] theorem State.takeFetchFault_fb (f : Fault) : (s.takeFetchFault f).fb = s.fb := rfl
@[simp] theorem State.takeFetchFault_key (f : Fault) : (s.takeFetchFault f).key = s.key := rfl
@[simp] theorem State.takeFetchFault_op (f : Fault) : (s.takeFetchFault f).op = s.op := rfl
@[simp] theorem State.takeFetchFault_fault (f : Fault) : (s.takeFetchFault f).fault = some ⟨f, s.pc, none⟩ := rfl
@[simp] theorem State.takeFetchFault_source (f : Fault) : (s.takeFetchFault f).source = s.source := rfl
@[simp] theorem State.takeFetchFault_draws (f : Fault) : (s.takeFetchFault f).draws = s.draws := rfl

/-! ### clearFb -/

@[simp] theorem State.clearFb_V : (s.clearFb).V = s.V := rfl
@[simp] theorem State.clearFb_I : (s.clearFb).I = s.I := rfl
@[simp] theorem State.clearFb_pc : (s.clearFb).pc = s.pc := rfl
@[simp] theorem State.clearFb_sp : (s.clearFb).sp = s.sp := rfl
@[simp] theorem State.clearFb_stack : (s.clearFb).stack = s.stack := rfl
@[simp] theorem State.clearFb_dt : (s.clearFb).dt = s.dt := rfl
@[simp] theorem State.clearFb_st : (s.clearFb).st = s.st := rfl
@[simp] theorem State.clearFb_mem : (s.clearFb).mem = s.mem := rfl
@[simp] theorem State.clearFb_fb : (s.clearFb).fb = Vector.replicate 32 0 := rfl
@[simp] theorem State.clearFb_key : (s.clearFb).key = s.key := rfl
@[simp] theorem State.clearFb_op : (s.clearFb).op = s.op := rfl
@[simp] theorem State.clearFb_fault : (s.clearFb).fault = s.fault := rfl
@[simp] theorem State.clearFb_source : (s.clearFb).source = s.source := rfl
@[simp] theorem State.clearFb_draws : (s.clearFb).draws = s.draws := rfl

/-! ### skipIf -/

@[simp] theorem State.skipIf_V (c : Bool) : (s.skipIf c).V = s.V := by cases c <;> rfl
@[simp] theorem State.skipIf_I (c : Bool) : (s.skipIf c).I = s.I := by cases c <;> rfl
@[simp] theorem State.skipIf_pc (c : Bool) : (s.skipIf c).pc = if c then BitVec.ofNat 16 (s.pc.toNat + 2) else s.pc := by cases c <;> rfl
@[simp] theorem State.skipIf_sp (c : Bool) : (s.skipIf c).sp = s.sp := by cases c <;> rfl
@[simp] theorem State.skipIf_stack (c : Bool) : (s.skipIf c).stack = s.stack := by cases c <;> rfl
@[simp] theorem State.skipIf_dt (c : Bool) : (s.skipIf c).dt = s.dt := by cases c <;> rfl
@[simp] theorem State.skipIf_st (c : Bool) : (s.skipIf c).st = s.st := by cases c <;> rfl
@[simp] theorem State.skipIf_mem (c : Bool) : (s.skipIf c).mem = s.mem := by cases c <;> rfl
@[simp] theorem State.skipIf_fb (c : Bool) : (s.skipIf c).fb = s.fb := by cases c <;> rfl
@[simp] theorem State.skipIf_key (c : Bool) : (s.skipIf c).key = s.key := by cases c <;> rfl
@[simp] theorem State.skipIf_op (c : Bool) : (s.skipIf c).op = s.op := by cases c <;> rfl
@[simp] theorem State.skipIf_fault (c : Bool) : (s.skipIf c).fault = s.fault := by cases c <;> rfl
@[simp] theorem State.skipIf_source (c : Bool) : (s.skipIf c).source = s.source := by cases c <;> rfl
@[simp] theorem State.skipIf_draws (c : Bool) : (s.skipIf c).draws = s.draws := by cases c <;> rfl

/-! ### toggle -/

@[simp] theorem State.toggle_V (px py : Nat) : (s.toggle px py).V = if s.pixel px py then s.V.set 15 1 else s.V := by unfold State.toggle; split <;> rfl
@[simp] theorem State.toggle_I (px py : Nat) : (s.toggle px py).I = s.I := by unfold State.toggle; split <;> rfl
@[simp] theorem State.toggle_pc (px py : Nat) : (s.toggle px py).pc = s.pc := by unfold State.toggle; split <;> rfl
@[simp] theorem State.toggle_sp (px py : Nat) : (s.toggle px py).sp = s.sp := by unfold State.toggle; split <;> rfl
@[simp] theorem State.toggle_stack (px py : Nat) : (s.toggle px py).stack = s.stack := by unfold State.toggle; split <;> rfl
@[simp] theorem State.toggle_dt (px py : Nat) : (s.toggle px py).dt = s.dt := by unfold State.toggle; split <;> rfl
@[simp] theorem State.toggle_st (px py : Nat) : (s.toggle px py).st = s.st := by unfold State.toggle; split <;> rfl
@[simp] theorem State.toggle_mem (px py : Nat) : (s.toggle px py).mem = s.mem := by unfold State.toggle; split <;> rfl
@[simp] theorem State.toggle_fb (px py : Nat) : (s.toggle px py).fb = s.fb.setIfInBounds py (s.fb.getD py 0 ^^^ BitVec.twoPow 64 px) := by unfold State.toggle; split <;> rfl
@[simp] theorem State.toggle_key (px py : Nat) : (s.toggle px py).key = s.key := by unfold State.toggle; split <;> rfl
@[simp] theorem State.toggle_op (px py : Nat) : (s.toggle px py).op = s.op := by unfold State.toggle; split <;> rfl
@[simp] theorem State.toggle_fault (px py : Nat) : (s.toggle px py).fault = s.fault := by unfold State.toggle; split <;> rfl
@[simp] theorem State.toggle_source (px py : Nat) : (s.toggle px py).source = s.source := by unfold State.toggle; split <;> rfl
@[simp] theorem State.toggle_draws (px py : Nat) : (s.toggle px py).draws = s.draws := by unfold State.toggle; split <;> rfl

/-! ### writeKey -/

@[simp] theorem State.writeKey_V (k : Fin 16) (b : Bool) : (s.writeKey k b).V = s.V := rfl
@[simp] theorem State.writeKey_I (k : Fin 16) (b : Bool) : (s.writeKey k b).I = s.I := rfl
@[simp] theorem State.writeKey_pc (k : Fin 16) (b : Bool) : (s.writeKey k b).pc = s.pc := rfl
@[simp] theorem State.writeKey_sp (k : Fin 16) (b : Bool) : (s.writeKey k b).sp = s.sp := rfl
@[simp] theorem State.writeKey_stack (k : Fin 16) (b : Bool) : (s.writeKey k b).stack = s.stack := rfl
@[simp] theorem State.writeKey_dt (k : Fin 16) (b : Bool) : (s.writeKey k b).dt = s.dt := rfl
@[simp] theorem State.writeKey_st (k : Fin 16) (b : Bool) : (s.writeKey k b).st = s.st := rfl
@[simp] theorem State.writeKey_mem (k : Fin 16) (b : Bool) : (s.writeKey k b).mem = s.mem := rfl
@[simp] theorem State.writeKey_fb (k : Fin 16) (b : Bool) : (s.writeKey k b).fb = s.fb := rfl
@[simp] theorem State.writeKey_key (k : Fin 16) (b : Bool) : (s.writeKey k b).key = s.key.set k b := rfl
@[simp] theorem State.writeKey_op (k : Fin 16) (b : Bool) : (s.writeKey k b).op = s.op := rfl
@[simp] theorem State.writeKey_fault (k : Fin 16) (b : Bool) : (s.writeKey k b).fault = s.fault := rfl
@[simp] theorem State.writeKey_source (k : Fin 16) (b : Bool) : (s.writeKey k b).source = s.source := rfl
@[simp] theorem State.writeKey_draws (k : Fin 16) (b : Bool) : (s.writeKey k b).draws = s.draws := rfl

/-! ### construct -/

/-- construct() leaves only the model's own name and count of the random source as they were (R230, log 29). -/
theorem State.construct_eq : s.construct = { State.reset with source := s.source, draws := s.draws } := rfl

/-- construct() seeds the machine's own random source anew; it does not give it another machine's (R35, R211). -/
@[simp] theorem State.construct_source : s.construct.source = s.source := rfl
@[simp] theorem State.construct_draws : s.construct.draws = s.draws := rfl

/-! ### Register reads -/

@[simp] theorem State.v_setV_same (x : Reg) (b : Byte) : (s.setV x b).v x = b := by simp [State.v]

theorem State.v_setV_ne (x r : Reg) (b : Byte) (h : r ≠ x) : (s.setV x b).v r = s.v r := by
  have h' : x.val ≠ r.val := fun e => h (Fin.ext e.symm)
  simp [State.v, Vector.getElem_set_ne, h']

theorem State.v_setV (x r : Reg) (b : Byte) : (s.setV x b).v r = if r = x then b else s.v r := by
  split
  next h => subst h; simp
  next h => exact s.v_setV_ne x r b h

@[simp] theorem State.v_setFlag (r : Reg) (b : Byte) : (s.setFlag b).v r = if r = 15 then b else s.v r :=
  s.v_setV 15 r b

theorem State.v_congr {s t : State} (h : t.V = s.V) (r : Reg) : t.v r = s.v r := by simp [State.v, h]

theorem State.v_toggle (px py : Nat) (r : Reg) :
    (s.toggle px py).v r = if r = 15 ∧ s.pixel px py = true then 1 else s.v r := by
  have e : (s.toggle px py).v r = (if s.pixel px py then s.setV 15 1 else s).v r := by
    unfold State.toggle; split <;> rfl
  rw [e]
  by_cases h : s.pixel px py <;> simp [h, State.v_setV]

/-! ### Cell reads -/

theorem State.pixel_congr {s t : State} (h : t.fb = s.fb) (px py : Nat) : t.pixel px py = s.pixel px py := by
  simp [State.pixel, h]

@[simp] theorem State.pixel_clearFb (px py : Nat) : s.clearFb.pixel px py = false := by
  by_cases h : py < 32 <;> simp [State.pixel, Vector.getD, h]

/-- Drawing a set bit on a cell of the grid toggles that cell and no other (R121). -/
theorem State.pixel_toggle (px py qx qy : Nat) (hx : px < 64) (hy : py < 32) :
    (s.toggle px py).pixel qx qy = (s.pixel qx qy ^^ decide (qx = px ∧ qy = py)) := by
  by_cases h : qy = py
  · subst h
    simp [State.pixel, Vector.getD, hy, BitVec.getLsbD_xor, BitVec.getLsbD_twoPow, hx, eq_comm]
  · have h' : ¬ py = qy := fun e => h e.symm
    by_cases hq : qy < 32 <;> simp [State.pixel, Vector.getD, hq, h, h']

end Sys2Proof.Machine
end

