-- ==== Sys2Proof/Laws/Memory.lean ====
section
/-! SUPPORT. The laws of memory: a write is read back and leaves every other address alone, and every operation keeps the
canonical form (R62, R68). -/

namespace Sys2Proof.Machine

/-! ### Cells -/

theorem cellsWf_cons {lo a : Nat} {b : Byte} {rest : List Host.Cell} :
    cellsWf lo ((a, b) :: rest) = true ↔ lo ≤ a ∧ a < 4096 ∧ b ≠ resetByte a ∧ cellsWf (a + 1) rest = true := by
  simp [cellsWf, and_assoc]

theorem cellsWf_mono {lo hi : Nat} {l : List Host.Cell} (h : lo ≤ hi) (hl : cellsWf hi l = true) :
    cellsWf lo l = true := by
  cases l with
  | nil => rfl
  | cons c rest =>
    rw [cellsWf_cons] at hl ⊢
    exact ⟨by omega, hl.2⟩

/-- Below its first address a canonical list reads as the reset contents. -/
theorem readCells_lt {lo a : Nat} {l : List Host.Cell} (hl : cellsWf lo l = true) (h : a < lo) :
    readCells a l = resetByte a := by
  induction l generalizing lo with
  | nil => rfl
  | cons c rest ih =>
    obtain ⟨d, b⟩ := c
    rw [cellsWf_cons] at hl
    have hd : d ≠ a := by omega
    simp only [readCells, hd, if_false]
    exact ih hl.2.2.2 (by omega)

theorem readCells_writeCells_ne {a c : Nat} (b : Byte) (l : List Host.Cell) (h : c ≠ a) :
    readCells c (writeCells a b l) = readCells c l := by
  have h' : a ≠ c := h.symm
  induction l with
  | nil => by_cases hb : b = resetByte a <;> simp [writeCells, readCells, hb, h']
  | cons d rest ih =>
    obtain ⟨d, e⟩ := d
    unfold writeCells
    split
    · simp only [readCells, ih]
    split
    next hda => subst hda; split <;> simp [readCells, h']
    · split <;> simp [readCells, h']

theorem readCells_writeCells_same {lo a : Nat} (b : Byte) (l : List Host.Cell) (hl : cellsWf lo l = true) :
    readCells a (writeCells a b l) = b := by
  induction l generalizing lo with
  | nil => by_cases hb : b = resetByte a <;> simp [writeCells, readCells, hb]
  | cons d rest ih =>
    obtain ⟨d, e⟩ := d
    rw [cellsWf_cons] at hl
    unfold writeCells
    split
    next hda =>
      have hne : d ≠ a := by omega
      simp only [readCells, hne, if_false]
      exact ih hl.2.2.2
    split
    next hda =>
      subst hda
      split
      next hb => rw [hb]; exact readCells_lt hl.2.2.2 (by omega)
      · simp [readCells]
    next h1 h2 =>
      split
      next hb =>
        rw [hb]
        exact readCells_lt (lo := a + 1) (cellsWf_cons.2 ⟨by omega, hl.2⟩) (by omega)
      · simp [readCells]

theorem cellsWf_writeCells {lo a : Nat} (b : Byte) (l : List Host.Cell) (hl : cellsWf lo l = true) (ha : lo ≤ a)
    (hm : a < 4096) : cellsWf lo (writeCells a b l) = true := by
  induction l generalizing lo with
  | nil =>
    unfold writeCells
    split
    · rfl
    next hb => exact cellsWf_cons.2 ⟨ha, hm, hb, rfl⟩
  | cons d rest ih =>
    obtain ⟨d, e⟩ := d
    have h := cellsWf_cons.1 hl
    unfold writeCells
    split
    · exact cellsWf_cons.2 ⟨h.1, h.2.1, h.2.2.1, ih h.2.2.2 (by omega)⟩
    split
    next hda =>
      subst hda
      split
      · exact cellsWf_mono (by omega) h.2.2.2
      next hb => exact cellsWf_cons.2 ⟨ha, hm, hb, h.2.2.2⟩
    · split
      · exact hl
      next hb => exact cellsWf_cons.2 ⟨ha, hm, hb, cellsWf_cons.2 ⟨by omega, h.2⟩⟩

/-! ### Memory -/

/-- A byte written is read back (R68). -/
theorem Memory.read_write_same {m : Memory} (h : m.wf = true) (a : Nat) (b : Byte) : (m.write a b).read a = b :=
  readCells_writeCells_same b m.cells h

/-- A write leaves every other address alone (R13, R68). -/
theorem Memory.read_write_ne (m : Memory) {a c : Nat} (b : Byte) (h : c ≠ a) : (m.write a b).read c = m.read c :=
  readCells_writeCells_ne b m.cells h

/-- A write inside the address space keeps the canonical form. -/
theorem Memory.wf_write {m : Memory} (h : m.wf = true) {a : Nat} (b : Byte) (ha : a < 4096) : (m.write a b).wf = true :=
  cellsWf_writeCells b m.cells h (Nat.zero_le a) ha

theorem Memory.wf_reset : State.reset.mem.wf = true := rfl

/-- Memory at reset reads as the reset contents (R39). -/
@[simp] theorem Memory.read_reset (a : Nat) : State.reset.mem.read a = resetByte a := rfl

theorem Memory.wf_writeList {m : Memory} (h : m.wf = true) {a : Nat} {bs : List Byte} (ha : a + bs.length ≤ 4096) :
    (m.writeList a bs).wf = true := by
  induction bs generalizing m a with
  | nil => exact h
  | cons b bs ih =>
    simp only [List.length_cons] at ha
    exact ih (wf_write h b (by omega)) (by omega)

/-- Outside the bytes written, a list of writes changes nothing. -/
theorem Memory.read_writeList_out (m : Memory) {a c : Nat} {bs : List Byte} (h : c < a ∨ a + bs.length ≤ c) :
    (m.writeList a bs).read c = m.read c := by
  induction bs generalizing m a with
  | nil => rfl
  | cons b bs ih =>
    simp only [List.length_cons] at h
    rw [Memory.writeList, ih _ (by omega), Memory.read_write_ne _ _ (by omega)]

/-- The k-th byte written is read back at `a + k`. -/
theorem Memory.read_writeList_at {m : Memory} (hm : m.wf = true) {a k : Nat} {bs : List Byte}
    (ha : a + bs.length ≤ 4096) (hk : k < bs.length) : (m.writeList a bs).read (a + k) = bs[k] := by
  induction bs generalizing m a k with
  | nil => simp at hk
  | cons b bs ih =>
    simp only [List.length_cons] at ha hk
    rw [Memory.writeList]
    cases k with
    | zero =>
      rw [read_writeList_out _ (by omega)]
      exact read_write_same hm a b
    | succ k =>
      have := ih (wf_write hm b (a := a) (by omega)) (a := a + 1) (k := k) (by omega) (by omega)
      rw [show a + (k + 1) = a + 1 + k by omega, this]
      rfl

end Sys2Proof.Machine
end

