-- ==== Sys2Proof/Laws/Ops.lean ====
section
/-! SUPPORT. For each shared operation one lemma that says everything it can do; the provers cite these instead of
unfolding the operation. -/

namespace Sys2Proof.Machine

open Sys2Proof.Config

variable {s t : State}

@[simp] theorem except_bind_ok {α β : Type} (a : α) (f : α → Except Fault β) : (Except.ok a).bind f = f a := rfl

@[simp] theorem except_bind_error {α β : Type} (e : Fault) (f : α → Except Fault β) :
    (Except.error e : Except Fault α).bind f = .error e := rfl

/-- A sequence of two computations completes exactly if both do. -/
theorem except_bind_eq_ok {α β : Type} {x : Except Fault α} {f : α → Except Fault β} {b : β} :
    x.bind f = .ok b ↔ ∃ a, x = .ok a ∧ f a = .ok b := by
  cases x <;> simp

/-- A sequence of two computations raises what the first of them to raise does. -/
theorem except_bind_eq_error {α β : Type} {x : Except Fault α} {f : α → Except Fault β} {e : Fault} :
    x.bind f = .error e ↔ x = .error e ∨ ∃ a, x = .ok a ∧ f a = .error e := by
  cases x <;> simp

/-! ### Memory accesses -/

theorem State.memRead_eq (s : State) (a : Nat) :
    s.memRead a = if a < 4096 then .ok (s.mem.read a) else .error (.memoryOutOfBounds .read a) := rfl

theorem State.memWrite_eq (s : State) (a : Nat) (b : Byte) :
    s.memWrite a b =
      if a < 4096 then .ok { s with mem := s.mem.write a b } else .error (.memoryOutOfBounds .write a) := rfl

/-- Byte writes at `a`, `a + 1`, ...: all of them land, or the first address at or past 4096 raises (R62, R163, R164). -/
theorem State.storeBytes_eq (s : State) (a : Nat) (bs : List Byte) :
    s.storeBytes a bs =
      if bs = [] ∨ a + bs.length ≤ 4096 then .ok { s with mem := s.mem.writeList a bs }
      else .error (.memoryOutOfBounds .write (max a 4096)) := by
  induction bs generalizing s a with
  | nil => simp [State.storeBytes, Memory.writeList]
  | cons b bs ih =>
    simp only [State.storeBytes, State.memWrite_eq, List.length_cons, reduceCtorEq, false_or]
    by_cases h : a < 4096
    · simp only [h, if_true, except_bind_ok, ih]
      by_cases hl : bs = []
      · subst hl
        simp [Memory.writeList, show a + 1 ≤ 4096 by omega]
      · have := List.length_pos_of_ne_nil hl
        by_cases hb : a + (bs.length + 1) ≤ 4096
        · simp [hb, show a + 1 + bs.length ≤ 4096 by omega, Memory.writeList]
        · simp [hb, hl, show ¬ a + 1 + bs.length ≤ 4096 by omega]
          omega
    · simp only [h, if_false, except_bind_error, show ¬ a + (bs.length + 1) ≤ 4096 by omega]
      rw [Nat.max_eq_left (by omega)]

/-- Byte reads into V0, V1, ... that all stay inside memory complete, and change nothing but those registers (R165). -/
theorem State.loadBytes_ok (s : State) {base count : Nat} (h : count = 0 ∨ base + count ≤ 4096) (hc : count ≤ 16) :
    ∃ t, s.loadBytes base count = .ok t ∧ t = { s with V := t.V } ∧
      ∀ r : Reg, t.v r = if r.val < count then s.mem.read (base + r.val) else s.v r := by
  induction count with
  | zero => exact ⟨s, rfl, rfl, fun r => by simp⟩
  | succ i ih =>
    obtain ⟨t, ht, hf, hv⟩ := ih (by omega) (by omega)
    have hm : t.mem = s.mem := by rw [hf]
    refine ⟨t.setV (Fin.ofNat 16 i) (s.mem.read (base + i)), ?_, ?_, fun r => ?_⟩
    · simp [State.loadBytes, ht, State.memRead_eq, show base + i < 4096 by omega, hm]
    · conv_lhs => rw [hf]
      rfl
    · have hi : (Fin.ofNat 16 i).val = i := Nat.mod_eq_of_lt (by omega)
      rw [State.v_setV, hv]
      by_cases hr : r = Fin.ofNat 16 i
      · have hv' : r.val = i := by rw [hr, hi]
        rw [if_pos hr, if_pos (by omega), hv']
      · have : r.val ≠ i := fun e => hr (Fin.ext (e.trans hi.symm))
        simp only [hr, if_false]
        by_cases hlt : r.val < i
        · simp [hlt, show r.val < i + 1 by omega]
        · simp [hlt, show ¬ r.val < i + 1 by omega]

/-- Byte reads that leave memory raise at the first address at or past 4096 (R165). -/
theorem State.loadBytes_error (s : State) {base count : Nat} (h0 : count ≠ 0) (h : 4096 < base + count)
    (hc : count ≤ 16) : s.loadBytes base count = .error (.memoryOutOfBounds .read (max base 4096)) := by
  induction count with
  | zero => exact absurd rfl h0
  | succ i ih =>
    by_cases hb : i = 0 ∨ base + i ≤ 4096
    · obtain ⟨t, ht, -, -⟩ := s.loadBytes_ok hb (by omega)
      have hm : max base 4096 = base + i := by omega
      simp [State.loadBytes, ht, State.memRead_eq, show ¬ base + i < 4096 by omega, hm]
    · rw [State.loadBytes, ih (by omega) (by omega) (by omega)]
      rfl

@[simp] theorem transferCount_lsRange (x : Reg) : transferCount lsRange x = x.val := rfl

theorem State.length_firstRegs (s : State) {count : Nat} (h : count ≤ 16) : (s.firstRegs count).length = count := by
  simp [State.firstRegs, h]

theorem State.firstRegs_eq_nil (s : State) {count : Nat} (h : count ≤ 16) : s.firstRegs count = [] ↔ count = 0 := by
  rw [← List.length_eq_zero_iff, s.length_firstRegs h]

theorem State.getElem_firstRegs (s : State) {count k : Nat} (h : count ≤ 16) (hk : k < (s.firstRegs count).length) :
    (s.firstRegs count)[k] = s.v ⟨k, by rw [s.length_firstRegs h] at hk; omega⟩ := by
  simp [State.firstRegs, State.v]

/-! ### Stack, keypad -/

/-- A push below 16 entries writes the entry at SP and then increments SP (R26). -/
theorem State.push_ok (s : State) (w : Word) (h : s.sp.val < 16) :
    s.push w = .ok { s with stack := s.stack.set s.sp.val w, sp := ⟨s.sp.val + 1, by omega⟩ } := by
  simp [State.push, h]

theorem State.push_error (s : State) (w : Word) (h : s.sp.val = 16) : s.push w = .error .stackOverflow := by
  simp [State.push, h]

/-- A pop of a stack that is not empty decrements SP and then reads the entry there (R26). -/
theorem State.pop_ok (s : State) (h : s.sp.val ≠ 0) :
    s.pop = .ok (s.stack[s.sp.val - 1], { s with sp := ⟨s.sp.val - 1, by omega⟩ }) := by
  simp [State.pop, h]

theorem State.pop_error (s : State) (h : s.sp.val = 0) : s.pop = .error .stackUnderflow := by
  simp [State.pop, h]

theorem State.keyRead_ok (s : State) {k : Nat} (h : k < 16) : s.keyRead k = .ok s.key[k] := by
  simp [State.keyRead, h]

theorem State.keyRead_error (s : State) {k : Nat} (h : 16 ≤ k) :
    s.keyRead k = .error (.keypadIndexOutOfRange k) := by
  simp [State.keyRead, show ¬ k < 16 by omega]

/-- The lowest key is pressed, and no key below it is (R174). -/
theorem State.lowestKey_eq_some {k : Fin 16} :
    s.lowestKey = some k ↔ s.key[k] = true ∧ ∀ j : Fin 16, j < k → s.key[j] = false := by
  unfold State.lowestKey
  rw [List.find?_eq_some_iff_getElem]
  constructor
  · rintro ⟨hk, i, hi, rfl, hj⟩
    simp only [List.getElem_finRange] at hk ⊢
    refine ⟨hk, fun j hlt => ?_⟩
    have := hj j.val (by simpa [Fin.lt_def] using hlt)
    simpa using this
  · rintro ⟨hk, hj⟩
    refine ⟨hk, k.val, by simp, by simp, fun j hlt => ?_⟩
    have := hj ⟨j, by omega⟩ hlt
    simpa using this

theorem State.lowestKey_eq_none : s.lowestKey = none ↔ ∀ k : Fin 16, s.key[k] = false := by
  simp [State.lowestKey, List.find?_eq_none]

/-! ### Drawing -/

/-- What drawing leaves alone: everything but VF and the framebuffer (R121). -/
def State.DrawFrame (s t : State) : Prop :=
  t = { s with V := t.V, fb := t.fb } ∧ ∀ r : Reg, r ≠ 15 → t.v r = s.v r

theorem State.DrawFrame.refl (s : State) : s.DrawFrame s := ⟨rfl, fun _ _ => rfl⟩

theorem State.DrawFrame.trans {s t u : State} (h : s.DrawFrame t) (k : t.DrawFrame u) : s.DrawFrame u := by
  refine ⟨?_, fun r hr => (k.2 r hr).trans (h.2 r hr)⟩
  rw [k.1, h.1]

theorem State.toggle_frame (s : State) (px py : Nat) : s.DrawFrame (s.toggle px py) := by
  refine ⟨?_, fun r hr => by simp [State.v_toggle, hr]⟩
  unfold State.toggle
  split <;> rfl

/-- A set bit on the grid is drawn; one outside it raises, naming its place (R122 with `DRAW_EDGE = Fault`). -/
theorem State.plot_eq (s : State) (px py : Nat) :
    s.plot drawEdge px py =
      if px < 64 ∧ py < 32 then .ok (s.toggle px py) else .error (.framebufferOutOfBounds px py) := rfl

/-- Drawing columns that completes touches only VF and the framebuffer. -/
theorem State.drawCols_frame {b : Byte} {px0 py cols : Nat} (h : s.drawCols drawEdge b px0 py cols = .ok t) :
    s.DrawFrame t := by
  induction cols generalizing t with
  | zero => cases h; exact .refl s
  | succ col ih =>
    obtain ⟨u, hu, h⟩ := except_bind_eq_ok.1 h
    refine (ih hu).trans ?_
    split at h
    · rw [State.plot_eq] at h
      split at h
      · cases h; exact State.toggle_frame _ _ _
      · cases h
    · cases h; exact State.DrawFrame.refl _

/-- Drawing columns raises only for a set bit outside the grid. -/
theorem State.drawCols_error {b : Byte} {px0 py cols : Nat} {f : Fault}
    (h : s.drawCols drawEdge b px0 py cols = .error f) :
    ∃ col, col < cols ∧ spriteBit b col = true ∧ (64 ≤ px0 + col ∨ 32 ≤ py) ∧
      f = .framebufferOutOfBounds (px0 + col) py := by
  induction cols with
  | zero => cases h
  | succ col ih =>
    obtain h | ⟨u, -, h⟩ := except_bind_eq_error.1 h
    · obtain ⟨c, hc, hr⟩ := ih h
      exact ⟨c, by omega, hr⟩
    · split at h
      next hb =>
        rw [State.plot_eq] at h
        split at h
        · cases h
        · cases h; exact ⟨col, by omega, hb, by omega, rfl⟩
      · cases h

/-- Drawing rows that completes touches only VF and the framebuffer. -/
theorem State.drawRows_frame {base px0 py0 rows : Nat} (h : s.drawRows drawEdge base px0 py0 rows = .ok t) :
    s.DrawFrame t := by
  induction rows generalizing t with
  | zero => cases h; exact .refl s
  | succ row ih =>
    obtain ⟨u, hu, h⟩ := except_bind_eq_ok.1 h
    obtain ⟨b, -, h⟩ := except_bind_eq_ok.1 h
    exact (ih hu).trans (drawCols_frame h)

/-- Drawing rows that completes has read every row inside memory. -/
theorem State.drawRows_in_memory {base px0 py0 rows : Nat} (h : s.drawRows drawEdge base px0 py0 rows = .ok t) :
    rows = 0 ∨ base + rows ≤ 4096 := by
  cases rows with
  | zero => exact .inl rfl
  | succ row =>
    obtain ⟨u, -, h⟩ := except_bind_eq_ok.1 h
    obtain ⟨b, hb, -⟩ := except_bind_eq_ok.1 h
    rw [State.memRead_eq] at hb
    split at hb
    · exact .inr (by omega)
    · cases hb

/-- Drawing rows raises only at the first row outside memory, or for a set bit outside the grid in a row inside memory
(R121, R203). -/
theorem State.drawRows_error {base px0 py0 rows : Nat} {f : Fault}
    (h : s.drawRows drawEdge base px0 py0 rows = .error f) :
    (max base 4096 < base + rows ∧ f = .memoryOutOfBounds .read (max base 4096)) ∨
      ∃ row col, row < rows ∧ col < 8 ∧ base + row < 4096 ∧ spriteBit (s.mem.read (base + row)) col = true ∧
        (64 ≤ px0 + col ∨ 32 ≤ py0 + row) ∧ f = .framebufferOutOfBounds (px0 + col) (py0 + row) := by
  induction rows with
  | zero => cases h
  | succ row ih =>
    obtain h | ⟨u, hu, h⟩ := except_bind_eq_error.1 h
    · obtain ⟨hr, he⟩ | ⟨r, c, hr, he⟩ := ih h
      · exact .inl ⟨by omega, he⟩
      · exact .inr ⟨r, c, by omega, he⟩
    · have hm : u.mem = s.mem := by rw [(drawRows_frame hu).1]
      have hrows := drawRows_in_memory hu
      rw [State.memRead_eq, hm] at h
      split at h
      next hin =>
        obtain ⟨c, hc, hb, ho, rfl⟩ := drawCols_error h
        exact .inr ⟨row, c, by omega, hc, hin, hb, ho, rfl⟩
      next hout =>
        cases h
        exact .inl ⟨by omega, by rw [show max base 4096 = base + row by omega]⟩

/-! ### Timers and pc -/

theorem toNat_decayed (b : Byte) : (decayed b).toNat = b.toNat - 1 := by
  unfold decayed
  split
  next h => subst h; rfl
  next h =>
    have h0 : b.toNat ≠ 0 := fun e => h (BitVec.eq_of_toNat_eq e)
    have := b.isLt
    rw [BitVec.toNat_sub]
    change (2 ^ 8 - 1 + b.toNat) % 2 ^ 8 = b.toNat - 1
    omega

theorem ofNat_toNat_add (p : Word) (k : Nat) : BitVec.ofNat 16 (p.toNat + k) = p + BitVec.ofNat 16 k :=
  BitVec.eq_of_toNat_eq (by simp)

/-- The state execution begins in: the opcode is latched and pc is 2 further (R34, R102). -/
theorem State.latch_eq (s : State) (w : Word) : s.latch w = { s with op := w, pc := s.pc + 2 } := by
  simp [State.latch, State.setPc, ofNat_toNat_add]

/-- A skip moves pc by 2 or not at all (R15). -/
theorem State.skipIf_eq (s : State) (c : Bool) : s.skipIf c = { s with pc := if c then s.pc + 2 else s.pc } := by
  cases c <;> simp [State.skipIf, State.setPc, ofNat_toNat_add]

/-! ### The ends of an instruction and of a cycle -/

/-- An instruction ends with what it computed, or with the fault it raised taken. -/
theorem State.finish_eq_next {r : Except Fault State} :
    s.finish r = .next t ↔ r = .ok t ∨ ∃ f, r = .error f ∧ t = s.takeFault f := by
  cases r <;> simp [State.finish, eq_comm]

theorem State.exists_finish (s : State) (r : Except Fault State) : ∃ t, s.finish r = .next t := by
  cases r <;> exact ⟨_, rfl⟩

/-- The fetch: the big-endian word at pc, or a fault at the first of its two addresses past memory (R64, R101). -/
theorem State.fetch_eq (s : State) :
    s.fetch =
      if s.pc.toNat < 4095 then .ok (Word.ofBytes (s.mem.read s.pc.toNat) (s.mem.read (s.pc.toNat + 1)))
      else .error (.memoryOutOfBounds .fetch (max s.pc.toNat 4096)) := by
  unfold State.fetch
  by_cases h : s.pc.toNat < 4095
  · simp [h, show ¬ s.pc.toNat ≥ 4096 by omega, show ¬ s.pc.toNat + 1 ≥ 4096 by omega]
  · by_cases h2 : s.pc.toNat ≥ 4096
    · simp [h, h2]
    · simp [show s.pc.toNat = 4095 by omega]

/-- Everything one step can do: on a faulted machine it answers the recorded fault; a fetch fault is taken; otherwise the
opcode's instruction, or nothing on a miss, runs in the latched state and the cycle ends. -/
theorem step_eq (s : State) :
    step s =
      match s.fault with
      | some r => .fault r.fault
      | none =>
        match s.fetch with
        | .error f => .next (s.takeFetchFault f)
        | .ok w =>
          match decodeWord w with
          | .ok i => s.finishCycle (exec i (s.latch w))
          | .error _ => .next (s.latch w).decay := by
  unfold step State.cycleStep State.runCycle State.execute
  cases hf : s.fault with
  | some r => rfl
  | none =>
    cases s.fetch with
    | error f => rfl
    | ok w =>
      simp only
      cases decodeWord w with
      | ok i => rfl
      | error m => simp [State.finishCycle, hf]

/-- A step to a next state is one of these: a fetch fault taken, a decode miss, an instruction's fault taken, or an
instruction completed. -/
theorem step_cases (h : step s = .next t) :
    s.fault = none ∧
    ((∃ f, s.fetch = .error f ∧ t = s.takeFetchFault f) ∨
      ∃ w, s.fetch = .ok w ∧
        ((∃ m, decodeWord w = .error m ∧ t = (s.latch w).decay) ∨
          ∃ i u, decodeWord w = .ok i ∧ exec i (s.latch w) = .next u ∧
            ((∃ r, u.fault = some r ∧ t = s.abort r) ∨ (u.fault = none ∧ t = u.decay)))) := by
  rw [step_eq] at h
  cases hf : s.fault with
  | some r => simp [hf] at h
  | none =>
    refine ⟨rfl, ?_⟩
    simp only [hf] at h
    cases hw : s.fetch with
    | error f => simp only [hw] at h; cases h; exact .inl ⟨f, rfl, rfl⟩
    | ok w =>
      simp only [hw] at h
      refine .inr ⟨w, rfl, ?_⟩
      cases hd : decodeWord w with
      | error m => simp only [hd] at h; cases h; exact .inl ⟨m, rfl, rfl⟩
      | ok i =>
        simp only [hd] at h
        refine .inr ⟨i, ?_⟩
        cases he : exec i (s.latch w) with
        | fault f => simp [he, State.finishCycle] at h
        | refused r => simp [he, State.finishCycle] at h
        | next u =>
          refine ⟨u, rfl, rfl, ?_⟩
          simp only [he, State.finishCycle] at h
          cases hu : u.fault with
          | some r => simp only [hu] at h; cases h; exact .inl ⟨r, rfl, rfl⟩
          | none => simp only [hu] at h; cases h; exact .inr ⟨rfl, rfl⟩

end Sys2Proof.Machine
end

