-- ==== Sys2Proof/Laws/Exec.lean ====
section
/-! SUPPORT. What each instruction that can raise does: one inversion lemma each, its completed state or its fault taken;
and that every instruction answers a next state. -/

namespace Sys2Proof.Machine

variable {s t : State}

/-- What an instruction can raise depends only on the registers, I, SP and memory. -/
theorem canRaise_congr {i : Instr} {f : Fault} (hV : t.V = s.V) (hI : t.I = s.I) (hsp : t.sp = s.sp)
    (hmem : t.mem = s.mem) (h : CanRaise i s f) : CanRaise i t f := by
  cases s
  cases t
  simp only at hV hI hsp hmem
  subst hV hI hsp hmem
  exact h

theorem execRet_cases (h : execRet s = .next t) :
    (s.sp.val = 0 ∧ t = s.takeFault .stackUnderflow) ∨
      ∃ _hs : s.sp.val ≠ 0, t = { s with sp := ⟨s.sp.val - 1, by omega⟩, pc := s.stack[s.sp.val - 1] } := by
  replace h := State.finish_eq_next.1 h
  obtain h | ⟨f, h, rfl⟩ := h
  all_goals by_cases hs : s.sp.val = 0
  · simp [State.pop_error s hs] at h
  · simp only [State.pop_ok s hs, except_bind_ok, Except.ok.injEq] at h
    subst h
    exact .inr ⟨hs, by simp [State.setPc]⟩
  · simp only [State.pop_error s hs, except_bind_error, Except.error.injEq] at h
    subst h
    exact .inl ⟨hs, rfl⟩
  · simp [State.pop_ok s hs] at h

theorem execCall_cases {nnn : Nat} (h : execCall nnn s = .next t) :
    (s.sp.val = 16 ∧ t = s.takeFault .stackOverflow) ∨
      ∃ hs : s.sp.val < 16, t = { s with
        stack := s.stack.set s.sp.val s.pc, sp := ⟨s.sp.val + 1, by omega⟩, pc := BitVec.ofNat 16 nnn } := by
  replace h := State.finish_eq_next.1 h
  obtain h | ⟨f, h, rfl⟩ := h
  all_goals by_cases hs : s.sp.val = 16
  · simp [State.push_error s _ hs] at h
  · simp only [State.push_ok s _ (show s.sp.val < 16 by omega), except_bind_ok, Except.ok.injEq] at h
    subst h
    exact .inr ⟨by omega, rfl⟩
  · simp only [State.push_error s _ hs, except_bind_error, Except.error.injEq] at h
    subst h
    exact .inl ⟨hs, rfl⟩
  · simp [State.push_ok s _ (show s.sp.val < 16 by omega)] at h

theorem execDrw_cases {x y : Reg} {n : Nat} (h : execDrw x y n s = .next t) :
    s.DrawFrame t ∨ ∃ f, CanRaise (.drw x y n) s f ∧ t = s.takeFault f := by
  replace h := State.finish_eq_next.1 h
  obtain h | ⟨f, h, rfl⟩ := h
  · refine .inl (State.DrawFrame.trans ⟨rfl, fun r hr => ?_⟩ (State.drawRows_frame h))
    simp [hr]
  · refine .inr ⟨f, ?_, rfl⟩
    obtain ⟨hn, rfl⟩ | ⟨r, c, hr, hc, hin, hb, ho, rfl⟩ := State.drawRows_error h
    · exact ⟨rfl, hn⟩
    · exact ⟨ho, r, c, hr, hc, hin, hb, rfl, rfl⟩

theorem execLdBcd_cases {x : Reg} (h : execLdBcd x s = .next t) :
    (s.I.toNat + 2 < 4096 ∧ t = { s with mem := s.mem.writeList s.I.toNat (bcdDigits (s.v x)) }) ∨
      (4096 ≤ s.I.toNat + 2 ∧ t = s.takeFault (.memoryOutOfBounds .write (max s.I.toNat 4096))) := by
  simp only [execLdBcd, State.storeBytes_eq, State.indexAddr, bcdDigits, List.length_cons, List.length_nil] at h
  split at h <;> cases h
  next hc => exact .inl ⟨by simp at hc; omega, rfl⟩
  next hc => exact .inr ⟨by simp at hc; omega, rfl⟩

theorem execStoreRegs_cases {x : Reg} (h : execStoreRegs x s = .next t) :
    ((x.val = 0 ∨ s.I.toNat + x.val ≤ 4096) ∧ t = { s with mem := s.mem.writeList s.I.toNat (s.firstRegs x.val) }) ∨
      (x.val ≠ 0 ∧ 4096 < s.I.toNat + x.val ∧ t = s.takeFault (.memoryOutOfBounds .write (max s.I.toNat 4096))) := by
  have hx : x.val ≤ 16 := by omega
  simp only [execStoreRegs, State.storeBytes_eq, State.indexAddr, transferCount_lsRange, s.length_firstRegs hx,
    s.firstRegs_eq_nil hx] at h
  split at h <;> cases h
  next hc => exact .inl ⟨hc, rfl⟩
  next hc => exact .inr ⟨by omega, by omega, rfl⟩

theorem execLoadRegs_cases {x : Reg} (h : execLoadRegs x s = .next t) :
    ((x.val = 0 ∨ s.I.toNat + x.val ≤ 4096) ∧ t = { s with V := t.V } ∧
        ∀ r : Reg, t.v r = if r < x then s.mem.read (s.I.toNat + r.val) else s.v r) ∨
      (x.val ≠ 0 ∧ 4096 < s.I.toNat + x.val ∧ t = s.takeFault (.memoryOutOfBounds .read (max s.I.toNat 4096))) := by
  have hx : x.val ≤ 16 := by omega
  rw [execLoadRegs, transferCount_lsRange, State.indexAddr] at h
  by_cases hc : x.val = 0 ∨ s.I.toNat + x.val ≤ 4096
  · obtain ⟨u, hu, hf, hv⟩ := s.loadBytes_ok hc hx
    rw [hu] at h
    cases h
    exact .inl ⟨hc, hf, hv⟩
  · rw [s.loadBytes_error (by omega) (by omega) hx] at h
    cases h
    exact .inr ⟨by omega, by omega, rfl⟩

theorem execSkp_cases {x : Reg} (h : execSkp x s = .next t) :
    (∃ hk : (s.v x).toNat < 16, t = s.skipIf s.key[(s.v x).toNat]) ∨
      (16 ≤ (s.v x).toNat ∧ t = s.takeFault (.keypadIndexOutOfRange (s.v x).toNat)) := by
  by_cases hk : (s.v x).toNat < 16
  · simp only [execSkp, s.keyRead_ok hk, except_bind_ok, State.finish] at h
    cases h
    exact .inl ⟨hk, rfl⟩
  · simp only [execSkp, s.keyRead_error (show 16 ≤ (s.v x).toNat by omega), except_bind_error, State.finish] at h
    cases h
    exact .inr ⟨by omega, rfl⟩

theorem execSknp_cases {x : Reg} (h : execSknp x s = .next t) :
    (∃ hk : (s.v x).toNat < 16, t = s.skipIf !s.key[(s.v x).toNat]) ∨
      (16 ≤ (s.v x).toNat ∧ t = s.takeFault (.keypadIndexOutOfRange (s.v x).toNat)) := by
  by_cases hk : (s.v x).toNat < 16
  · simp only [execSknp, s.keyRead_ok hk, except_bind_ok, State.finish] at h
    cases h
    exact .inl ⟨hk, rfl⟩
  · simp only [execSknp, s.keyRead_error (show 16 ≤ (s.v x).toNat by omega), except_bind_error, State.finish] at h
    cases h
    exact .inr ⟨by omega, rfl⟩

theorem execLdVxKey_cases {x : Reg} (h : execLdVxKey x s = .next t) :
    (∃ k, s.lowestKey = some k ∧ t = s.setV x (BitVec.ofNat 8 k.val)) ∨
      (s.lowestKey = none ∧ t = { s with pc := s.pc - 2 }) := by
  unfold execLdVxKey at h
  split at h <;> cases h
  next k hk => exact .inl ⟨k, hk, rfl⟩
  next hk => exact .inr ⟨hk, rfl⟩

/-- Every instruction answers a next state: none faults or refuses as an outcome (a raise is taken, R201). -/
theorem exists_exec_next (i : Instr) (s : State) : ∃ t, exec i s = .next t := by
  cases i
  case ldVxKey x => simp only [exec, execLdVxKey]; split <;> exact ⟨_, rfl⟩
  all_goals first | exact ⟨_, rfl⟩ | exact State.exists_finish _ _

end Sys2Proof.Machine
end

