-- ==== Sys2Proof/Laws/PerInstr.lean ====
section
/-! SUPPORT. Statements about every instruction, one lemma per constructor. `RowMatch`: the word the encoder emits selects
the instruction's own row of R83. -/

namespace Sys2Proof.Laws.RowMatch

/-- The encoded word of a well-formed instruction matches the instruction's row (R83, R93). -/
def Statement (i : Instr) : Prop := i.wf = true → encode i &&& i.row.mask = i.row.pattern

theorem of_cls {w : Word} {p : Word} (h : w.toNat / 4096 * 4096 = p.toNat) : w &&& 0xF000 = p :=
  BitVec.eq_of_toNat_eq (by rw [toNat_and_F000, Word.cls_eq, h])

theorem of_nibble {w : Word} {p : Word} (h : w.toNat / 4096 * 4096 + w.toNat % 16 = p.toNat) : w &&& 0xF00F = p :=
  BitVec.eq_of_toNat_eq (by rw [toNat_and_F00F, Word.cls_eq, Word.n_eq, h])

theorem of_byte {w : Word} {p : Word} (h : w.toNat / 4096 * 4096 + w.toNat % 256 = p.toNat) : w &&& 0xF0FF = p :=
  BitVec.eq_of_toNat_eq (by rw [toNat_and_F0FF, Word.cls_eq, Word.kk_eq, h])

theorem cls : Statement (.cls) := fun _ => by decide

theorem ret : Statement (.ret) := fun _ => by decide

theorem jp (nnn : Nat) : Statement (.jp nnn) := by
  intro h
  simp only [Instr.wf, fitsAddress, decide_eq_true_eq] at h
  exact of_cls (by simp [encode, formatA, Instr.row]; omega)

theorem call (nnn : Nat) : Statement (.call nnn) := by
  intro h
  simp only [Instr.wf, fitsAddress, decide_eq_true_eq] at h
  exact of_cls (by simp [encode, formatA, Instr.row]; omega)

theorem seImm (x : Reg) (kk : Nat) : Statement (.seImm x kk) := by
  intro h
  simp only [Instr.wf, fitsByte, decide_eq_true_eq] at h
  exact of_cls (by simp [encode, formatXK, Instr.row]; omega)

theorem sneImm (x : Reg) (kk : Nat) : Statement (.sneImm x kk) := by
  intro h
  simp only [Instr.wf, fitsByte, decide_eq_true_eq] at h
  exact of_cls (by simp [encode, formatXK, Instr.row]; omega)

theorem seReg (x : Reg) (y : Reg) : Statement (.seReg x y) := fun _ =>
  of_cls (by simp [encode, formatXY, Instr.row]; omega)

theorem ldImm (x : Reg) (kk : Nat) : Statement (.ldImm x kk) := by
  intro h
  simp only [Instr.wf, fitsByte, decide_eq_true_eq] at h
  exact of_cls (by simp [encode, formatXK, Instr.row]; omega)

theorem addImm (x : Reg) (kk : Nat) : Statement (.addImm x kk) := by
  intro h
  simp only [Instr.wf, fitsByte, decide_eq_true_eq] at h
  exact of_cls (by simp [encode, formatXK, Instr.row]; omega)

theorem ldReg (x : Reg) (y : Reg) : Statement (.ldReg x y) := fun _ =>
  of_nibble (by simp [encode, formatXY, Instr.row]; omega)

theorem orReg (x : Reg) (y : Reg) : Statement (.orReg x y) := fun _ =>
  of_nibble (by simp [encode, formatXY, Instr.row]; omega)

theorem andReg (x : Reg) (y : Reg) : Statement (.andReg x y) := fun _ =>
  of_nibble (by simp [encode, formatXY, Instr.row]; omega)

theorem xorReg (x : Reg) (y : Reg) : Statement (.xorReg x y) := fun _ =>
  of_nibble (by simp [encode, formatXY, Instr.row]; omega)

theorem addReg (x : Reg) (y : Reg) : Statement (.addReg x y) := fun _ =>
  of_nibble (by simp [encode, formatXY, Instr.row]; omega)

theorem subReg (x : Reg) (y : Reg) : Statement (.subReg x y) := fun _ =>
  of_nibble (by simp [encode, formatXY, Instr.row]; omega)

theorem shr (x : Reg) : Statement (.shr x) := fun _ =>
  of_nibble (by simp [encode, formatXY, Instr.row]; omega)

theorem subnReg (x : Reg) (y : Reg) : Statement (.subnReg x y) := fun _ =>
  of_nibble (by simp [encode, formatXY, Instr.row]; omega)

theorem shl (x : Reg) : Statement (.shl x) := fun _ =>
  of_nibble (by simp [encode, formatXY, Instr.row]; omega)

theorem sneReg (x : Reg) (y : Reg) : Statement (.sneReg x y) := fun _ =>
  of_cls (by simp [encode, formatXY, Instr.row]; omega)

theorem ldI (nnn : Nat) : Statement (.ldI nnn) := by
  intro h
  simp only [Instr.wf, fitsAddress, decide_eq_true_eq] at h
  exact of_cls (by simp [encode, formatA, Instr.row]; omega)

theorem jpV0 (nnn : Nat) : Statement (.jpV0 nnn) := by
  intro h
  simp only [Instr.wf, fitsAddress, decide_eq_true_eq] at h
  exact of_cls (by simp [encode, formatA, Instr.row]; omega)

theorem rnd (x : Reg) (kk : Nat) : Statement (.rnd x kk) := by
  intro h
  simp only [Instr.wf, fitsByte, decide_eq_true_eq] at h
  exact of_cls (by simp [encode, formatXK, Instr.row]; omega)

theorem drw (x : Reg) (y : Reg) (n : Nat) : Statement (.drw x y n) := by
  intro h
  simp only [Instr.wf, fitsNibble, decide_eq_true_eq] at h
  exact of_cls (by simp [encode, formatXY, Instr.row]; omega)

theorem skp (x : Reg) : Statement (.skp x) := fun _ =>
  of_nibble (by simp [encode, formatXK, Instr.row]; omega)

theorem sknp (x : Reg) : Statement (.sknp x) := fun _ =>
  of_nibble (by simp [encode, formatXK, Instr.row]; omega)

theorem ldVxDt (x : Reg) : Statement (.ldVxDt x) := fun _ =>
  of_byte (by simp [encode, formatXK, Instr.row]; omega)

theorem ldVxKey (x : Reg) : Statement (.ldVxKey x) := fun _ =>
  of_byte (by simp [encode, formatXK, Instr.row]; omega)

theorem ldDtVx (x : Reg) : Statement (.ldDtVx x) := fun _ =>
  of_byte (by simp [encode, formatXK, Instr.row]; omega)

theorem ldStVx (x : Reg) : Statement (.ldStVx x) := fun _ =>
  of_byte (by simp [encode, formatXK, Instr.row]; omega)

theorem addI (x : Reg) : Statement (.addI x) := fun _ =>
  of_byte (by simp [encode, formatXK, Instr.row]; omega)

theorem ldFont (x : Reg) : Statement (.ldFont x) := fun _ =>
  of_byte (by simp [encode, formatXK, Instr.row]; omega)

theorem ldBcd (x : Reg) : Statement (.ldBcd x) := fun _ =>
  of_byte (by simp [encode, formatXK, Instr.row]; omega)

theorem storeRegs (x : Reg) : Statement (.storeRegs x) := fun _ =>
  of_byte (by simp [encode, formatXK, Instr.row]; omega)

theorem loadRegs (x : Reg) : Statement (.loadRegs x) := fun _ =>
  of_byte (by simp [encode, formatXK, Instr.row]; omega)

end Sys2Proof.Laws.RowMatch
end

