-- ==== Sys2Proof/Laws/Run.lean ====
section
/-! SUPPORT. Runs of several cycles, one cycle at a time. -/

namespace Sys2Proof.Machine

theorem coreRun_succ_of_next (M : Host.Core) {s t : M.State} {n : Nat} (h : M.step s = .next t) :
    M.run (n + 1) s = M.run n t := by
  simp [Host.Core.run, h]

theorem coreRun_succ_eq_next (M : Host.Core) {s u : M.State} {n : Nat} :
    M.run (n + 1) s = .next u ↔ ∃ t, M.step s = .next t ∧ M.run n t = .next u := by
  cases hs : M.step s <;> simp [Host.Core.run, hs]

variable {s t u : State} {n : Nat}

theorem run_zero (s : State) : Sys2Proof.core.run 0 s = .next s := rfl

/-- A run of n + 1 cycles whose first answers `t` is the run of n cycles from `t`. -/
theorem run_succ_of_next (h : step s = .next t) : Sys2Proof.core.run (n + 1) s = Sys2Proof.core.run n t :=
  coreRun_succ_of_next Sys2Proof.core h

/-- A run of n + 1 cycles answers a next state exactly if its first cycle does and the run of n cycles from there does. -/
theorem run_succ_eq_next :
    Sys2Proof.core.run (n + 1) s = .next u ↔ ∃ t, step s = .next t ∧ Sys2Proof.core.run n t = .next u :=
  coreRun_succ_eq_next Sys2Proof.core

end Sys2Proof.Machine
end

