-- ==== Sys2Proof/Tests/Slice0.lean ====
section
/-! SUPPORT. Tests of the model, with results from the spec's own examples and tables (95_test_vectors.md, named by its
sections), and a witness for the hypotheses of each obligation that has some. -/

namespace Sys2Proof.Tests

open Sys2Proof Sys2Proof.Machine Sys2Proof.Claims

/-! ### Helpers -/

/-- Whether the outcome is a next state with `p`. -/
def isNext (o : Host.Outcome State Fault Refusal) (p : State → Bool) : Bool :=
  match o with
  | .next t => p t
  | _ => false

/-- One cycle of `s` with the word `w` at pc. -/
def cycleOf (w : Nat) (s : State) (p : State → Bool) : Bool := isNext (step (s.withFetchWord 16 w)) p

/-- The freshly constructed machine with V0 = a, V1 = b and VF = f. -/
def regs (a b f : Byte) : State := ((State.reset.setV 0 a).setV 1 b).setV 15 f

/-- No fault was taken, and pc is `p`. -/
def okAt (p : Word) (t : State) : Bool := t.fault == none && t.pc == p

/-- No fault was taken, and V0 and VF are `a` and `f`. -/
def v0vf (a f : Byte) (t : State) : Bool := t.fault == none && t.v 0 == a && t.v 15 == f

/-- The fault status is `f`, raised by the word `w` fetched at 0x200. -/
def faulted (f : Fault) (w : Word) (t : State) : Bool := t.fault == some ⟨f, 0x200, some w⟩

/-- A machine with memory bytes `bs` from address `a`. -/
def withBytes (a : Nat) (bs : List Byte) (s : State) : State := { s with mem := s.mem.writeList a bs }

/-- The word decodes to the instruction. -/
def decodesTo (w : Word) (i : Instr) : Bool :=
  match decodeWord w with
  | .ok j => j == i
  | .error _ => false

/-- The word is this decode miss. -/
def misses (w : Word) (m : DecodeMiss) : Bool :=
  match decodeWord w with
  | .ok _ => false
  | .error k => k == m

/-! ### Well-formedness: an ill-formed term for each check, and the boundary it admits -/

theorem test_wf_address_jp : (Instr.jp 4096).wf = false ∧ (Instr.jp 4095).wf = true := by decide
theorem test_wf_address_call : (Instr.call 4096).wf = false ∧ (Instr.call 4095).wf = true := by decide
theorem test_wf_address_ldI : (Instr.ldI 4096).wf = false ∧ (Instr.ldI 4095).wf = true := by decide
theorem test_wf_address_jpV0 : (Instr.jpV0 4096).wf = false ∧ (Instr.jpV0 4095).wf = true := by decide
theorem test_wf_byte_seImm : (Instr.seImm 0 256).wf = false ∧ (Instr.seImm 0 255).wf = true := by decide
theorem test_wf_byte_sneImm : (Instr.sneImm 0 256).wf = false ∧ (Instr.sneImm 0 255).wf = true := by decide
theorem test_wf_byte_ldImm : (Instr.ldImm 0 256).wf = false ∧ (Instr.ldImm 0 255).wf = true := by decide
theorem test_wf_byte_addImm : (Instr.addImm 0 256).wf = false ∧ (Instr.addImm 0 255).wf = true := by decide
theorem test_wf_byte_rnd : (Instr.rnd 0 256).wf = false ∧ (Instr.rnd 0 255).wf = true := by decide
theorem test_wf_nibble_drw : (Instr.drw 0 0 16).wf = false ∧ (Instr.drw 0 0 15).wf = true := by decide

/-! ### Decoding: a word of each row, from R83's pattern and the examples of 95_test_vectors.md -/

theorem test_decode_display : decodesTo 0x00E0 .cls ∧ decodesTo 0xD015 (.drw 0 1 5) := by decide
theorem test_decode_stack : decodesTo 0x00EE .ret ∧ decodesTo 0x2300 (.call 0x300) := by decide
theorem test_decode_jumps : decodesTo 0x1300 (.jp 0x300) ∧ decodesTo 0xBF01 (.jpV0 0xF01) := by decide
theorem test_decode_skips : decodesTo 0x3342 (.seImm 3 0x42) ∧ decodesTo 0x4342 (.sneImm 3 0x42) ∧
    decodesTo 0x5120 (.seReg 1 2) ∧ decodesTo 0x9120 (.sneReg 1 2) := by decide
theorem test_decode_immediates : decodesTo 0x65AB (.ldImm 5 0xAB) ∧ decodesTo 0x7202 (.addImm 2 2) ∧
    decodesTo 0xC00F (.rnd 0 0x0F) := by decide
theorem test_decode_logic : decodesTo 0x8010 (.ldReg 0 1) ∧ decodesTo 0x8011 (.orReg 0 1) ∧
    decodesTo 0x8012 (.andReg 0 1) ∧ decodesTo 0x8013 (.xorReg 0 1) := by decide
theorem test_decode_arithmetic : decodesTo 0x8F14 (.addReg 15 1) ∧ decodesTo 0x81F5 (.subReg 1 15) ∧
    decodesTo 0x81F6 (.shr 1) ∧ decodesTo 0x8017 (.subnReg 0 1) ∧ decodesTo 0x8F1E (.shl 15) := by decide
theorem test_decode_index : decodesTo 0xA300 (.ldI 0x300) ∧ decodesTo 0xF01E (.addI 0) ∧ decodesTo 0xF229 (.ldFont 2) := by
  decide
theorem test_decode_memory : decodesTo 0xF133 (.ldBcd 1) ∧ decodesTo 0xF255 (.storeRegs 2) ∧
    decodesTo 0xF265 (.loadRegs 2) := by decide
theorem test_decode_keys : decodesTo 0xE19E (.skp 1) ∧ decodesTo 0xE1A1 (.sknp 1) ∧ decodesTo 0xF30A (.ldVxKey 3) := by
  decide
theorem test_decode_timers : decodesTo 0xFF07 (.ldVxDt 15) ∧ decodesTo 0xF015 (.ldDtVx 0) ∧
    decodesTo 0xF018 (.ldStVx 0) := by decide

/-- Words whose ignored bits are not the pattern's (section 2.1 and R86, R88, R91). -/
theorem test_decode_ignored_bits : decodesTo 0x0FF0 .cls ∧ decodesTo 0x012E .ret ∧ decodesTo 0xE30E (.skp 3) ∧
    decodesTo 0xE3F1 (.sknp 3) ∧ decodesTo 0x5121 (.seReg 1 2) ∧ decodesTo 0x9121 (.sneReg 1 2) := by decide

/-- The misses of section 2.1. -/
theorem test_decode_misses : misses 0x0001 (.class0 1) ∧ misses 0x0123 (.class0 3) ∧ misses 0x8008 (.class8 8) ∧
    misses 0x800F (.class8 15) ∧ misses 0xE000 (.classE 0) ∧ misses 0xF000 (.classF 0) ∧ misses 0xF0FF (.classF 255) ∧
    misses 0xF019 (.classF 0x19) := by decide

/-- Fewer than two bytes are no instruction. -/
theorem test_decode_truncated : (match decode [0x00] with | .error m => m == .truncated | .ok _ => false) = true := by decide

theorem test_decodeTableWord : decodeTableWord 16 0xD015 = some (.drw 0 1 5) ∧ decodeTableWord 16 0x8008 = none := by decide

/-- What an assembler emits (R93's patterns). -/
theorem test_encode : encode (.skp 1) = 0xE19E ∧ encode (.sknp 1) = 0xE1A1 ∧ encode (.shr 15) = 0x8F06 ∧
    encodeBytes (.call 0x300) = [0x23, 0x00] := by decide

/-! ### The reset state and memory -/

theorem test_reset_memory : State.reset.mem.wf = true ∧ State.reset.mem.read 0x050 = 0xF0 ∧
    State.reset.mem.read 0x082 = 0xF0 ∧ State.reset.mem.read 0x09F = 0x80 ∧ State.reset.mem.read 0x0A0 = 0 ∧
    State.reset.mem.read 0x04F = 0 := by decide

/-- Writing the byte an unlisted address reads as takes its entry out. -/
theorem test_write_back_is_canonical : ((State.reset.mem.write 0x300 7).write 0x050 0xF0).write 0x300 0 = State.reset.mem := by
  decide

/-- load: the bound of R232. -/
theorem test_load_too_large : (State.reset.load (List.replicate 3585 1)).2 = .loadTooLarge := by
  rw [State.load, if_neg (by rw [List.length_replicate]; decide)]

/-- The code numbers of R200: 1 to 5 for a cycle, 16 for load. -/
theorem test_error_codes : Fault.code .stackOverflow = 1 ∧ Fault.code .stackUnderflow = 2 ∧
    Fault.code (.memoryOutOfBounds .read 4096) = 3 ∧ Fault.code (.framebufferOutOfBounds 64 0) = 4 ∧
    Fault.code (.keypadIndexOutOfRange 16) = 5 ∧ LoadResult.code .loadTooLarge = some 16 := by decide

/-! ### Instructions, each through one whole cycle (the rows of 95_test_vectors.md sections 1 and 2) -/

theorem test_cls : cycleOf 0x00E0 ((regs 0 0 1).toggle 5 5) (fun t => okAt 0x202 t && !t.pixel 5 5 && t.v 15 == 1) := by decide
theorem test_cls_zero_word : cycleOf 0x0000 (State.reset.toggle 5 5) (fun t => okAt 0x202 t && !t.pixel 5 5) := by decide

theorem test_ret : cycleOf 0x00EE { State.reset with sp := 1, stack := State.reset.stack.set 0 0x204 }
    (fun t => okAt 0x204 t && t.sp == 0 && t.stack[0] == 0x204) := by decide
theorem test_ret_empty : cycleOf 0x00EE State.reset (fun t => faulted .stackUnderflow 0x00EE t && t.pc == 0x200) := by decide

theorem test_jp : cycleOf 0x1200 { State.reset with dt := 4 } (fun t => okAt 0x200 t && t.dt == 3) := by decide

theorem test_call : cycleOf 0x2300 { State.reset with sp := 15 }
    (fun t => okAt 0x300 t && t.sp == 16 && t.stack[15] == 0x202) := by decide
theorem test_call_full : cycleOf 0x2300 { State.reset with sp := 16 }
    (fun t => faulted .stackOverflow 0x2300 t && t.sp == 16 && t.pc == 0x200) := by decide

theorem test_seImm : cycleOf 0x3342 (State.reset.setV 3 0x42) (okAt 0x204) ∧ cycleOf 0x3342 (State.reset.setV 3 0x41) (okAt 0x202) := by
  decide
theorem test_sneImm : cycleOf 0x4342 (State.reset.setV 3 0x42) (okAt 0x202) ∧ cycleOf 0x4300 (State.reset.setV 3 0x42) (okAt 0x204) := by
  decide
theorem test_seReg : cycleOf 0x5120 ((State.reset.setV 1 7).setV 2 7) (okAt 0x204) ∧ cycleOf 0x5120 (State.reset.setV 1 7) (okAt 0x202) := by
  decide
theorem test_sneReg : cycleOf 0x9120 ((State.reset.setV 1 7).setV 2 8) (okAt 0x204) ∧ cycleOf 0x9110 (State.reset.setV 1 7) (okAt 0x202) := by
  decide
theorem test_jpV0 : cycleOf 0xBFFF (State.reset.setV 0 0xFF) (okAt 0x10FE) := by decide

theorem test_ldImm : cycleOf 0x65AB State.reset (fun t => okAt 0x202 t && t.v 5 == 0xAB) := by decide
theorem test_addImm_wraps : cycleOf 0x7202 (State.reset.setV 2 0xFF) (fun t => t.v 2 == 1 && t.v 15 == 0) := by decide
theorem test_addImm_vf : cycleOf 0x7FFF (regs 0 0 1) (v0vf 0 0) := by decide
theorem test_ldReg : cycleOf 0x8010 (regs 0 9 0) (v0vf 9 0) := by decide
theorem test_orReg : cycleOf 0x8011 (regs 1 2 7) (v0vf 3 7) := by decide
theorem test_andReg : cycleOf 0x8012 (regs 0x3C 0x0F 0) (v0vf 0x0C 0) := by decide
theorem test_xorReg : cycleOf 0x8013 (regs 0xFF 0x0F 0) (v0vf 0xF0 0) := by decide
theorem test_addReg : cycleOf 0x8014 (regs 250 10 0) (v0vf 4 1) ∧ cycleOf 0x8014 (regs 254 1 0) (v0vf 255 0) := by decide
theorem test_addReg_vf : cycleOf 0x8F14 (regs 0 100 200) (v0vf 0 44) ∧ cycleOf 0x81F4 (regs 0 255 1) (fun t => t.v 1 == 0 && t.v 15 == 1) := by
  decide
theorem test_subReg : cycleOf 0x8015 (regs 5 10 0) (v0vf 251 0) ∧ cycleOf 0x8015 (regs 255 255 0) (v0vf 0 0) := by decide
theorem test_subReg_vf : cycleOf 0x8F15 (regs 0 3 5) (v0vf 0 254) ∧ cycleOf 0x81F5 (regs 0 5 3) (fun t => t.v 1 == 4 && t.v 15 == 1) := by
  decide
theorem test_shr : cycleOf 0x8006 (regs 0xFF 0 0) (v0vf 0x7F 1) ∧ cycleOf 0x8006 (regs 0x80 0 0) (v0vf 0x40 0) := by decide
theorem test_shr_vf : cycleOf 0x8F16 (regs 0 0 3) (v0vf 0 0) ∧ cycleOf 0x81F6 (regs 0 4 0xFF) (fun t => t.v 1 == 2 && t.v 15 == 0) := by
  decide
theorem test_subnReg : cycleOf 0x8017 (regs 254 255 0) (v0vf 1 1) ∧ cycleOf 0x8017 (regs 1 0 0) (v0vf 255 0) := by decide
theorem test_subnReg_vf : cycleOf 0x8F17 (regs 0 5 3) (v0vf 0 4) ∧ cycleOf 0x81F7 (regs 0 5 3) (fun t => t.v 1 == 251 && t.v 15 == 0) := by
  decide
theorem test_shl : cycleOf 0x800E (regs 0xFE 0 0) (v0vf 0xFC 1) ∧ cycleOf 0x800E (regs 0x7F 0 0) (v0vf 0xFE 0) := by decide
theorem test_shl_vf : cycleOf 0x8F1E (regs 0 0 0x80) (v0vf 0 2) ∧ cycleOf 0x8F1E (regs 0 0 0x7F) (v0vf 0 0) := by decide

/-- The drawn byte is free; kk = 0 gives 0 and takes a draw all the same. -/
theorem test_rnd_mask_zero (b : Byte) : b &&& immByte 0 = 0 := by simp [immByte]
theorem test_rnd_takes_draw : cycleOf 0xC000 State.reset (fun t => okAt 0x202 t && t.draws == 1) := by decide

theorem test_ldI : cycleOf 0xA300 State.reset (fun t => okAt 0x202 t && t.I == 0x300) := by decide
theorem test_addI : cycleOf 0xF01E { regs 2 0 0 with I := 0x0FFF } (fun t => v0vf 2 0 t && t.I == 0x1001) ∧
    cycleOf 0xF01E { regs 1 0 0 with I := 0xFFFF } (fun t => t.I == 0) := by decide
theorem test_ldFont : cycleOf 0xF029 (regs 0xA 0 0) (fun t => t.I == 0x082) ∧
    cycleOf 0xF029 (regs 0xFF 0 0) (fun t => t.I == 0x54B) := by decide

theorem test_ldBcd : cycleOf 0xF033 { regs 205 0 0 with I := 0x300 } (fun t => okAt 0x202 t && t.I == 0x300 &&
    t.mem.read 0x300 == 2 && t.mem.read 0x301 == 0 && t.mem.read 0x302 == 5) := by decide
theorem test_ldBcd_past_end : cycleOf 0xF033 { regs 123 0 0 with I := 0xFFE }
    (fun t => faulted (.memoryOutOfBounds .write 0x1000) 0xF033 t && t.mem.read 0xFFE == 0) := by decide

theorem test_storeRegs : cycleOf 0xF255 { (regs 1 2 0).setV 2 3 with I := 0x300 } (fun t => okAt 0x202 t &&
    t.mem.read 0x300 == 1 && t.mem.read 0x301 == 2 && t.mem.read 0x302 == 0 && t.I == 0x300) := by decide
theorem test_storeRegs_none : cycleOf 0xF055 { regs 1 2 0 with I := 0x5000 } (okAt 0x202) ∧
    cycleOf 0xF355 { regs 1 2 0 with I := 0xFFE } (faulted (.memoryOutOfBounds .write 0x1000) 0xF355) := by decide

theorem test_loadRegs : cycleOf 0xF265 (withBytes 0x300 [7, 8, 9] { State.reset with I := 0x300 })
    (fun t => okAt 0x202 t && t.v 0 == 7 && t.v 1 == 8 && t.v 2 == 0) := by decide
theorem test_loadRegs_past_end : cycleOf 0xF365 { regs 5 6 0 with I := 0xFFE }
    (fun t => faulted (.memoryOutOfBounds .read 0x1000) 0xF365 t && t.v 0 == 5) := by decide

theorem test_drw_collides : cycleOf 0xD011 ({ State.reset with I := 0x050 }.toggle 0 0)
    (fun t => okAt 0x202 t && t.v 15 == 1 && !t.pixel 0 0 && t.pixel 1 0 && t.pixel 3 0 && !t.pixel 4 0) := by decide
theorem test_drw_edge : cycleOf 0xD011 { regs 125 0 0 with I := 0x050 }
    (fun t => faulted (.framebufferOutOfBounds 64 0) 0xD011 t && !t.pixel 61 0) ∧
    cycleOf 0xD012 { State.reset with I := 0xFFF } (faulted (.memoryOutOfBounds .read 0x1000) 0xD012) := by decide

theorem test_skp : cycleOf 0xE19E ((regs 0 5 0).writeKey 5 true) (okAt 0x204) ∧ cycleOf 0xE19E (regs 0 5 0) (okAt 0x202) := by
  decide
theorem test_skp_index : cycleOf 0xE09E (regs 16 0 0) (faulted (.keypadIndexOutOfRange 16) 0xE09E) := by decide
theorem test_sknp : cycleOf 0xE1A1 (regs 0 5 0) (okAt 0x204) ∧ cycleOf 0xE1A1 ((regs 0 5 0).writeKey 5 true) (okAt 0x202) := by
  decide
theorem test_sknp_index : cycleOf 0xE0A1 (regs 255 0 0) (faulted (.keypadIndexOutOfRange 255) 0xE0A1) := by decide

theorem test_ldVxDt : cycleOf 0xFF07 { State.reset with dt := 200 } (fun t => v0vf 0 200 t && t.dt == 199) := by decide
theorem test_ldVxKey : cycleOf 0xFF0A ((State.reset.writeKey 7 true).writeKey 2 true) (fun t => okAt 0x202 t && t.v 15 == 2) := by
  decide
theorem test_ldVxKey_waits : cycleOf 0xF00A { State.reset with dt := 3, st := 1 }
    (fun t => okAt 0x200 t && t.dt == 2 && t.st == 0) := by decide
theorem test_ldDtVx : cycleOf 0xF015 (regs 5 0 0) (fun t => t.dt == 4) ∧
    cycleOf 0xF015 { State.reset with dt := 9 } (fun t => t.dt == 0) := by decide
theorem test_ldStVx : cycleOf 0xF018 (regs 2 0 0) (fun t => t.st == 1) ∧ cycleOf 0xF018 (regs 1 0 0) (fun t => t.st == 0) := by
  decide

/-! ### The cycle (section 2.2) -/

theorem test_decode_miss : cycleOf 0x0001 { State.reset with dt := 2 } (fun t => okAt 0x202 t && t.dt == 1 && t.op == 1) := by decide
theorem test_odd_fetch : isNext (step (withBytes 0x201 [0x60, 0x42] (State.reset.setPc 0x201)))
    (fun t => okAt 0x203 t && t.v 0 == 0x42) := by decide
theorem test_fetch_fault : isNext (step { State.reset with pc := 0xFFF, dt := 3 })
    (fun t => t.fault == some ⟨.memoryOutOfBounds .fetch 0x1000, 0xFFF, none⟩ && t.pc == 0xFFF && t.dt == 3) := by decide
theorem test_last_word : isNext (step (withBytes 0xFFE [0x00, 0xE0] (State.reset.setPc 0xFFE))) (okAt 0x1000) := by decide
theorem test_faulted_cycle : (State.reset.abort ⟨.stackUnderflow, 0x200, some 0x00EE⟩).cycle =
    (State.reset.abort ⟨.stackUnderflow, 0x200, some 0x00EE⟩, .fault .stackUnderflow) := by decide

/-! ### Witnesses: states and operands that meet the hypotheses of an obligation, at the boundary of each clause -/

/-- A faulted machine: RET with an empty stack, after its cycle. -/
def faultedState : State := State.reset.abort ⟨.stackUnderflow, 0x200, some 0x00EE⟩

/-- The reset machine with pc at an `F30A`. -/
def waiting : State := State.reset.withFetchWord 16 0xF30A

/-- The reset machine with I = `i`. -/
def atI (i : Nat) : State := State.reset.setI i

/-- With nothing written, memory above the font reads 0 (R39). -/
theorem read_reset_above_font {a : Nat} (h : 0x0A0 ≤ a) : State.reset.mem.read a = 0 := by
  have hl : fontTable.length ≤ a - 0x050 := by
    rw [show fontTable.length = 80 from rfl]
    omega
  simp [Memory.read, State.reset, readCells, resetByte, List.getD, List.getElem?_eq_none hl]

theorem reset_inBounds : State.reset.InBounds := ⟨by decide, by decide, by decide⟩

theorem reset_inv : State.reset.Inv := ⟨reset_inBounds, fun _ h => nomatch h⟩

theorem witness_StepRunsDecodedInstruction :
    (State.reset.fault = none ∧ State.reset.pc.toNat + 1 < 4096 ∧
      decode [State.reset.mem.read State.reset.pc.toNat, State.reset.mem.read (State.reset.pc.toNat + 1)] = .ok (.cls, []) ∧
      ∃ t, exec .cls { State.reset with op := 0x0000, pc := 0x202 } = .next t ∧ t.fault = none) ∧
    (decode [0x00, 0xEE] = .ok (.ret, []) ∧
      ∃ t r, exec .ret { State.reset with op := 0x00EE, pc := 0x202 } = .next t ∧ t.fault = some r) :=
  ⟨⟨rfl, by decide, rfl, _, rfl, rfl⟩, rfl, _, _, rfl, rfl⟩

theorem witness_FetchIsBigEndian : (State.reset.setPc 4094).pc.toNat + 1 < 4096 := by decide

theorem witness_FetchPastMemoryIsTakenAsFault :
    ((State.reset.setPc 4095).fault = none ∧ 4096 ≤ (State.reset.setPc 4095).pc.toNat + 1) ∧
    (State.reset.setPc 4096).fault = none ∧ 4096 ≤ (State.reset.setPc 4096).pc.toNat + 1 := by decide

theorem witness_DecodeMissOnlyAdvances : (State.reset.withFetchWord 16 0x0001).fault = none ∧
    (State.reset.withFetchWord 16 0x0001).fetch = .ok 0x0001 ∧ decodeWord 0x0001 = .error (.class0 1) := ⟨rfl, rfl, rfl⟩

theorem witness_EveryUnfaultedCycleCompletes : State.reset.fault = none := rfl

theorem witness_FaultedMachineDoesNothing : faultedState.fault = some ⟨.stackUnderflow, 0x200, some 0x00EE⟩ := rfl

theorem witness_TimersDecayOncePerCycle :
    (∃ t, step (State.reset.withFetchWord 16 0xF015) = .next t ∧ t.fault = none) ∧
    (State.reset.withFetchWord 16 0xF015).fetch = .ok 0xF015 ∧ decodeWord 0xF015 = .ok (.ldDtVx 0) ∧
    (∃ t, step (State.reset.withFetchWord 16 0xF018) = .next t ∧ t.fault = none) ∧
    (State.reset.withFetchWord 16 0xF018).fetch = .ok 0xF018 ∧ decodeWord 0xF018 = .ok (.ldStVx 0) ∧
    (∃ t, step (State.reset.withFetchWord 16 0xF007) = .next t ∧ t.fault = none) ∧
    (State.reset.withFetchWord 16 0xF007).fetch = .ok 0xF007 ∧ decodeWord 0xF007 = .ok (.ldVxDt 0) :=
  ⟨⟨_, rfl, rfl⟩, rfl, rfl, ⟨_, rfl, rfl⟩, rfl, rfl, ⟨_, rfl, rfl⟩, rfl, rfl⟩

theorem witness_FaultingCycleCommitsNothing :
    (∃ t r, step (State.reset.withFetchWord 16 0x00EE) = .next t ∧ t.fault = some r) ∧
    ∃ t r, step (State.reset.setPc 4095) = .next t ∧ t.fault = some r := ⟨⟨_, _, rfl, rfl⟩, _, _, rfl, rfl⟩

theorem witness_InstructionsRaiseOnlyListedFaults :
    State.reset.fault = none ∧ ∃ t r, exec .ret State.reset = .next t ∧ t.fault = some r := ⟨rfl, _, _, rfl, rfl⟩

theorem witness_EveryStepKeepsInvariant : State.reset.Inv ∧ ∃ t, step State.reset = .next t := ⟨reset_inv, _, rfl⟩

theorem witness_TransactionsKeepBounds : State.reset.InBounds := reset_inBounds

theorem witness_DecodeInvertsEncode : (Instr.jp 4095).wf = true ∧ (Instr.drw 15 15 15).wf = true ∧
    (Instr.rnd 15 255).wf = true := by decide

theorem witness_DecodeKeepsEveryReadBit : decodeWord 0xDF1F = .ok (.drw 15 1 15) := rfl

theorem witness_IgnoredBitsSelectNothing : decodeWord 0x0000 = .ok .cls ∧
    (0x0FF0 : Word) &&& Instr.cls.readMask = 0x0000 &&& Instr.cls.readMask := ⟨rfl, rfl⟩

theorem witness_DecodedInstructionIsWellFormed : decodeWord 0x1FFF = .ok (.jp 4095) := rfl

theorem witness_OpcodeTableSelectsOneRowOrNone :
    (⟨0xF00F, 0x0000⟩ : OpcodeRow) ∈ opcodeTable ∧ (0x0FF0 : Word) &&& 0xF00F = 0x0000 ∧ decodeWord 0x0FF0 = .ok .cls := by
  exact ⟨by decide, by decide, rfl⟩

theorem witness_DirectClassesSelectOneInstruction : 4095 < 4096 ∧ 255 < 256 ∧ 15 < 16 := by decide

theorem witness_StageTwoKeysSelectOrMiss : 255 < 256 ∧ 15 < 16 := by decide

theorem witness_DrwXorsSpriteAndFlagsCollision : SpriteFits { regs 60 27 0 with I := 0x050 } 0 1 5 := by
  intro row h
  have : row = 0 ∨ row = 1 ∨ row = 2 ∨ row = 3 ∨ row = 4 := by omega
  rcases this with rfl | rfl | rfl | rfl | rfl <;> decide

theorem witness_DrwTakesFirstRaise :
    firstDrawFault { regs 61 0 0 with I := 0x050 } 0 1 1 = some (.framebufferOutOfBounds 64 0) ∧
    firstDrawFault { State.reset with I := 0xFFF } 0 1 2 = some (.memoryOutOfBounds .read 4096) := ⟨rfl, rfl⟩

theorem witness_DrawTwiceRestoresFramebuffer :
    (0 : Reg) ≠ 15 ∧ ∃ t u, exec (.drw 0 0 1) (atI 0x050) = .next t ∧ t.fault = none ∧ exec (.drw 0 0 1) t = .next u ∧
      u.fault = none := ⟨by decide, _, _, rfl, rfl, rfl, rfl⟩

theorem witness_RetPopsReturnAddress : State.reset.sp.val = 0 ∧ ({ State.reset with sp := 1 } : State).sp.val ≠ 0 ∧
    ({ State.reset with sp := 16 } : State).sp.val ≠ 0 := by decide

theorem witness_JumpsSetPc : 0 < 4096 ∧ 4095 < 4096 := by decide

theorem witness_CallPushesReturnAddress : 4095 < 4096 ∧ ({ State.reset with sp := 16 } : State).sp.val = 16 ∧
    ({ State.reset with sp := 15 } : State).sp.val ≠ 16 ∧ State.reset.sp.val ≠ 16 := by decide

theorem witness_CallThenRetResumes : ({ State.reset with sp := 15 } : State).sp.val ≠ 16 := by decide

theorem witness_SkipsCompareAndAdvance : 0 < 256 ∧ 255 < 256 := by decide

theorem witness_LoadsAddImmediateAndLogicSetOneRegister : 0 < 256 ∧ 255 < 256 := by decide

theorem witness_SubtractionsSetDifferenceAndNotBorrow : (14 : Reg) ≠ 15 ∧ (0 : Reg) ≠ 15 := by decide

theorem witness_SubtractionsOnVfReadTheFlag : (14 : Reg) ≠ 15 := by decide

theorem witness_ShiftsSetResultAndShiftedOutBit : (14 : Reg) ≠ 15 := by decide

theorem witness_RndMasksOneDraw : 0 < 256 ∧ 255 < 256 ∧ (0 : Nat).testBit 7 = false := by decide

theorem witness_FlagIsZeroOrOne : State.reset.fault = none ∧
    ((0 : Reg) ≠ 15 ∧ (Instr.addReg 0 1) ∈ [Instr.addReg 0 1, .subReg 0 1, .subnReg 0 1, .shr 0, .shl 0]) ∧
    (∃ t, exec (.addReg 0 1) State.reset = .next t ∧ t.fault = none) ∧
    ∃ t, exec (.drw 15 1 1) (atI 0x050) = .next t ∧ t.fault = none := ⟨rfl, by decide, ⟨_, rfl, rfl⟩, _, rfl, rfl⟩

theorem witness_IndexLoadsSetI : 0 < 4096 ∧ 4095 < 4096 := by decide

theorem witness_BcdStoresThreeDigits : State.reset.mem.wf = true ∧ (atI 4093).I.toNat + 2 < 4096 ∧
    4096 ≤ (atI 4094).I.toNat + 2 ∧ 4096 ≤ (atI 4096).I.toNat + 2 := by decide

theorem witness_StoreRegistersExclusive : State.reset.mem.wf = true ∧ (0 : Reg).val = 0 ∧
    (atI 4081).I.toNat + (15 : Reg).val ≤ 4096 ∧ (15 : Reg).val ≠ 0 ∧ 4096 < (atI 4082).I.toNat + (15 : Reg).val := by decide

theorem witness_LoadRegistersExclusive : (0 : Reg).val = 0 ∧ (atI 4081).I.toNat + (15 : Reg).val ≤ 4096 ∧
    (15 : Reg).val ≠ 0 ∧ 4096 < (atI 4082).I.toNat + (15 : Reg).val := by decide

theorem witness_StoreThenLoadRestoresRegisters : (atI 0x300).mem.wf = true ∧ (atI 0x300).fault = none ∧
    ∃ t v, exec (.storeRegs 2) (atI 0x300) = .next t ∧ t.fault = none ∧ (t.setV 0 9).mem = t.mem ∧ (t.setV 0 9).I = t.I ∧
      (t.setV 0 9).fault = none ∧ exec (.loadRegs 2) (t.setV 0 9) = .next v := ⟨by decide, rfl, _, _, rfl, rfl, rfl, rfl, rfl, rfl⟩

theorem witness_FetchSeesStoredRegisters : (atI 0x300).mem.wf = true ∧ 2 ≤ (2 : Reg).val ∧
    (atI 0x300).I.toNat + (2 : Reg).val ≤ 4096 ∧ ∃ t, exec (.storeRegs 2) (atI 0x300) = .next t :=
  ⟨by decide, by decide, by decide, _, rfl⟩

theorem witness_EqualReadsGiveEqualMemories :
    (State.reset.mem.write 0x300 7).wf = true ∧ ((State.reset.mem.write 0x300 8).write 0x300 7).wf = true ∧
    ∀ a, (State.reset.mem.write 0x300 7).read a = ((State.reset.mem.write 0x300 8).write 0x300 7).read a :=
  ⟨by decide, by decide, fun _ => rfl⟩

theorem witness_KeySkipsTestOneKey : ((regs 15 0 0).v 0).toNat < 16 ∧ 16 ≤ ((regs 16 0 0).v 0).toNat := by decide

theorem witness_KeyWaitTakesLowestKeyOrRepeats :
    ((State.reset.writeKey 3 true).key[(3 : Fin 16)] = true ∧
      ∀ j : Fin 16, j < 3 → (State.reset.writeKey 3 true).key[j] = false) ∧
    ∀ k : Fin 16, State.reset.key[k] = false := by decide

theorem witness_KeyWaitStallsAcrossCycles : waiting.fault = none ∧ (∀ k : Fin 16, waiting.key[k] = false) ∧
    waiting.fetch = .ok 0xF30A ∧ decodeWord 0xF30A = .ok (.ldVxKey 3) := ⟨rfl, by decide, rfl, rfl⟩

theorem witness_DelayTimerCountsDown :
    ∃ t, Sys2Proof.core.run 1 State.reset = .next t ∧ t.fault = none ∧
      ∀ k u w x, k < 1 → Sys2Proof.core.run k State.reset = .next u → u.fetch = .ok w → decodeWord w ≠ .ok (.ldDtVx x) := by
  refine ⟨_, rfl, rfl, fun k u w x hk hu hw => ?_⟩
  obtain rfl : k = 0 := by omega
  cases hu
  rw [show State.reset.fetch = .ok 0x0000 from rfl] at hw
  injection hw with hw
  rw [← hw, show decodeWord 0x0000 = .ok .cls from rfl]
  simp

theorem witness_OnlyListedRegistersAreWritten :
    (∃ t, exec (.loadRegs 2) State.reset = .next t) ∧ ¬ writesReg (.loadRegs 2) 2 := ⟨⟨_, rfl⟩, by simp [writesReg]⟩

theorem witness_OnlyCallAndRetTouchStack :
    (∃ t, exec .cls State.reset = .next t) ∧ (∀ nnn, Instr.cls ≠ .call nnn) ∧ Instr.cls ≠ .ret :=
  ⟨⟨_, rfl⟩, by simp, by simp⟩

theorem witness_OnlyTheirInstructionsWriteIndexDisplayMemory :
    (∃ t, exec .ret State.reset = .next t) ∧ (∀ nnn, Instr.ret ≠ .ldI nnn) ∧ (∀ x, Instr.ret ≠ .addI x) ∧
    (∀ x, Instr.ret ≠ .ldFont x) ∧ Instr.ret ≠ .cls ∧ (∀ x y n, Instr.ret ≠ .drw x y n) ∧
    (∀ x, Instr.ret ≠ .ldBcd x) ∧ ∀ x, Instr.ret ≠ .storeRegs x := ⟨⟨_, rfl⟩, by simp⟩

theorem witness_KeypadIsHostWrittenInput :
    (∃ t, step State.reset = .next t) ∧ (1 : Fin 16) ≠ 0 ∧ (∀ x, Instr.cls ≠ .skp x) ∧ (∀ x, Instr.cls ≠ .sknp x) ∧
    (∀ x, Instr.cls ≠ .ldVxKey x) ∧ ∃ t, exec .cls State.reset = .next t :=
  ⟨⟨_, rfl⟩, by decide, by simp, by simp, by simp, _, rfl⟩

theorem witness_NoInstructionReadsSoundTimer :
    (∃ t, exec .cls State.reset = .next t) ∧ (∀ x, Instr.cls ≠ .ldStVx x) ∧ ∃ t, exec (.ldStVx 0) State.reset = .next t :=
  ⟨⟨_, rfl⟩, by simp, _, rfl⟩

theorem witness_LoadWritesOnlyRomRegion : State.reset.mem.wf = true ∧ 3584 < (List.replicate 3585 (1 : Byte)).length ∧
    (List.replicate 3584 (1 : Byte)).length ≤ 3584 := by
  rw [List.length_replicate, List.length_replicate]
  decide

theorem witness_FramebufferReadIsRowMajor : 63 < 64 ∧ 31 < 32 := by decide

/-- The reset machine with a lit screen cell, at pc `p`. -/
def litAt (p : Nat) : State := (State.reset.toggle 5 5).setPc p

theorem witness_ZeroWordClearsScreenAndAdvances : (litAt 4094).fault = none ∧ (litAt 4094).pixel 5 5 = true ∧
    (litAt 4094).pc.toNat + 1 < 4096 ∧ (litAt 4094).mem.read (litAt 4094).pc.toNat = 0 ∧
    (litAt 4094).mem.read ((litAt 4094).pc.toNat + 1) = 0 := by decide

/-- The reset state itself with 1792 cycles, and a lit screen one byte before the end of memory with none. -/
theorem witness_ZeroMemoryRunsIntoFetchFault :
    (State.reset.fault = none ∧ (∀ a, State.reset.pc.toNat ≤ a → a < 4096 → State.reset.mem.read a = 0) ∧
      State.reset.pc.toNat + 2 * 1792 ≤ 4096) ∧
    (litAt 4095).fault = none ∧ (∀ a, (litAt 4095).pc.toNat ≤ a → a < 4096 → (litAt 4095).mem.read a = 0) ∧
      (litAt 4095).pc.toNat + 2 * 0 ≤ 4096 ∧ 4095 ≤ (litAt 4095).pc.toNat := by
  refine ⟨⟨rfl, fun a ha _ => read_reset_above_font (Nat.le_trans (by decide) ha), by decide⟩, rfl,
    fun a ha _ => read_reset_above_font (Nat.le_trans (by decide) ha), by decide, by decide⟩

end Sys2Proof.Tests
end

section
/-! What the host's read of the framebuffer returns (R43). -/
namespace Sys2Proof.Machine

open Sys2Proof.Config

@[simp] theorem State.readFramebuffer_length (s : State) : s.readFramebuffer.length = 2048 := by
  simp [State.readFramebuffer, fbWidth, fbHeight]

/-- An index below 2048 holds the cell whose column and row are its remainder and quotient by the 64 columns (R43). -/
theorem State.readFramebuffer_getD (s : State) {i : Nat} (hi : i < 2048) :
    s.readFramebuffer.getD i false = s.pixel (i % 64) (i / 64) := by
  have hlen : i < s.readFramebuffer.length := by simpa using hi
  rw [List.getD_eq_getElem _ _ hlen]
  simp [State.readFramebuffer, fbWidth]

/-- Settles O58: below 64 columns, `py * 64 + px` has remainder `px` and quotient `py`. -/
theorem framebufferReadIsRowMajor : Obligations.FramebufferReadIsRowMajor := by
  intro s
  refine ⟨s.readFramebuffer_length, fun px py hpx hpy => ?_⟩
  have hi : py * 64 + px < 2048 := by omega
  have hcol : (py * 64 + px) % 64 = px := by omega
  have hrow : (py * 64 + px) / 64 = py := by omega
  rw [s.readFramebuffer_getD hi, hcol, hrow]

end Sys2Proof.Machine
end

section
/-! How the word of two fetched bytes reads: the byte at the lower address is the high one (R64). -/
namespace Sys2Proof

/-- Two bytes never exceed 16 bits, so the big-endian word does not wrap. -/
@[simp] theorem Word.toNat_ofBytes (hi lo : Byte) : (Word.ofBytes hi lo).toNat = hi.toNat * 256 + lo.toNat := by
  have hhi := hi.isLt
  have hlo := lo.isLt
  rw [Word.ofBytes, BitVec.toNat_ofNat, Nat.mod_eq_of_lt (by omega)]

/-- Bits 15:8 of a word of two bytes are its first byte. -/
theorem Word.toNat_ofBytes_div_256 (hi lo : Byte) : (Word.ofBytes hi lo).toNat / 256 = hi.toNat := by
  have hlo := lo.isLt
  rw [Word.toNat_ofBytes]
  omega

end Sys2Proof

namespace Sys2Proof.Machine

/-- With both bytes in memory the fetch answers their big-endian word (R64). -/
theorem State.fetch_of_lt (s : State) (h : s.pc.toNat + 1 < 4096) :
    s.fetch = .ok (Word.ofBytes (s.mem.read s.pc.toNat) (s.mem.read (s.pc.toNat + 1))) := by
  rw [s.fetch_eq, if_pos (by omega)]

/-- Settles O2: the fetch answers the word of the two bytes at pc, whose value and high byte are read off. -/
theorem fetchIsBigEndian : Obligations.FetchIsBigEndian := fun s h =>
  ⟨_, s.fetch_of_lt h, Word.toNat_ofBytes _ _, Word.toNat_ofBytes_div_256 _ _⟩

end Sys2Proof.Machine
end

section
/-! The fields of the words that R82's formats give, and the dispatch of those words: stage 1 on the class, stage 2 on the
key (R84 to R89). -/
namespace Sys2Proof

/-! ### The fields of a word given by its number (R81) -/

theorem Word.cls_ofNat (v : Nat) : Word.cls (BitVec.ofNat 16 v) = v / 4096 % 16 := by
  rw [Word.cls_eq, BitVec.toNat_ofNat]
  omega

theorem Word.x_ofNat (v : Nat) : (Word.x (BitVec.ofNat 16 v)).val = v / 256 % 16 := by
  rw [Word.x_val, BitVec.toNat_ofNat]
  omega

theorem Word.y_ofNat (v : Nat) : (Word.y (BitVec.ofNat 16 v)).val = v / 16 % 16 := by
  rw [Word.y_val, BitVec.toNat_ofNat]
  omega

theorem Word.n_ofNat (v : Nat) : Word.n (BitVec.ofNat 16 v) = v % 16 := by
  rw [Word.n_eq, BitVec.toNat_ofNat]
  omega

theorem Word.kk_ofNat (v : Nat) : Word.kk (BitVec.ofNat 16 v) = v % 256 := by
  rw [Word.kk_eq, BitVec.toNat_ofNat]
  omega

theorem Word.nnn_ofNat (v : Nat) : Word.nnn (BitVec.ofNat 16 v) = v % 4096 := by
  rw [Word.nnn_eq, BitVec.toNat_ofNat]
  omega

/-! ### The fields of a word of each format (R82) -/

section Formats

variable {c nnn kk f : Nat} (x y : Reg)

@[simp] theorem cls_formatA (hc : c < 16) (h : nnn < 4096) : (formatA c nnn).cls = c := by
  rw [formatA, Word.cls_ofNat]
  omega

@[simp] theorem nnn_formatA (h : nnn < 4096) : (formatA c nnn).nnn = nnn := by
  rw [formatA, Word.nnn_ofNat]
  omega

@[simp] theorem cls_formatXK (hc : c < 16) (h : kk < 256) : (formatXK c x kk).cls = c := by
  rw [formatXK, Word.cls_ofNat]
  omega

@[simp] theorem x_formatXK (h : kk < 256) : (formatXK c x kk).x = x :=
  Fin.ext (by rw [formatXK, Word.x_ofNat]; omega)

@[simp] theorem kk_formatXK (h : kk < 256) : (formatXK c x kk).kk = kk := by
  rw [formatXK, Word.kk_ofNat]
  omega

@[simp] theorem cls_formatXY (hc : c < 16) (h : f < 16) : (formatXY c x y f).cls = c := by
  rw [formatXY, Word.cls_ofNat]
  omega

@[simp] theorem x_formatXY (h : f < 16) : (formatXY c x y f).x = x :=
  Fin.ext (by rw [formatXY, Word.x_ofNat]; omega)

@[simp] theorem y_formatXY (h : f < 16) : (formatXY c x y f).y = y :=
  Fin.ext (by rw [formatXY, Word.y_ofNat]; omega)

@[simp] theorem n_formatXY (h : f < 16) : (formatXY c x y f).n = f := by
  rw [formatXY, Word.n_ofNat]
  omega

end Formats

/-! ### Stage 1: the direct classes (R85) -/

/-- The four direct classes that read an address. -/
theorem decodeWord_formatA {nnn : Nat} (h : nnn < 4096) :
    decodeWord (formatA 0x1 nnn) = .ok (.jp nnn) ∧ decodeWord (formatA 0x2 nnn) = .ok (.call nnn) ∧
    decodeWord (formatA 0xA nnn) = .ok (.ldI nnn) ∧ decodeWord (formatA 0xB nnn) = .ok (.jpV0 nnn) := by
  simp [decodeWord, h]

/-- The five direct classes that read a register and a byte. -/
theorem decodeWord_formatXK (x : Reg) {kk : Nat} (h : kk < 256) :
    decodeWord (formatXK 0x3 x kk) = .ok (.seImm x kk) ∧ decodeWord (formatXK 0x4 x kk) = .ok (.sneImm x kk) ∧
    decodeWord (formatXK 0x6 x kk) = .ok (.ldImm x kk) ∧ decodeWord (formatXK 0x7 x kk) = .ok (.addImm x kk) ∧
    decodeWord (formatXK 0xC x kk) = .ok (.rnd x kk) := by
  simp [decodeWord, h]

/-- The three direct classes that read two registers; only Dxyn reads the bottom nibble (R91). -/
theorem decodeWord_formatXY (x y : Reg) {n : Nat} (h : n < 16) :
    decodeWord (formatXY 0x5 x y n) = .ok (.seReg x y) ∧ decodeWord (formatXY 0x9 x y n) = .ok (.sneReg x y) ∧
    decodeWord (formatXY 0xD x y n) = .ok (.drw x y n) := by
  simp [decodeWord, h]

/-- Settles O19: the words are those of the formats A, XK and XY (R82). -/
theorem directClassesSelectOneInstruction : Obligations.DirectClassesSelectOneInstruction :=
  ⟨fun _ h => decodeWord_formatA h, fun x _ h => decodeWord_formatXK x h, fun x y _ h => decodeWord_formatXY x y h⟩

/-! ### Stage 2: the keys of classes 0, 8, E and F (R86 to R89) -/

/-- The operations of class 8 at the keys 0x0 to 0x7, in order (R87). -/
def class8Ops (x y : Reg) : List Instr :=
  [.ldReg x y, .orReg x y, .andReg x y, .xorReg x y, .addReg x y, .subReg x y, .shr x, .subnReg x y]

/-- The keys of class F with their instructions (R89). -/
def classFOps (x : Reg) : List (Nat × Instr) :=
  [(0x07, .ldVxDt x), (0x0A, .ldVxKey x), (0x15, .ldDtVx x), (0x18, .ldStVx x), (0x1E, .addI x), (0x29, .ldFont x),
    (0x33, .ldBcd x), (0x55, .storeRegs x), (0x65, .loadRegs x)]

theorem decodeClass0_eq (w : Word) :
    decodeClass0 w = if w.n = 0x0 then .ok .cls else if w.n = 0xE then .ok .ret else .error (.class0 w.n) := by
  unfold decodeClass0
  split
  next h => rw [if_pos h]
  next h => rw [if_neg (by omega), if_pos h]
  next h0 hE => rw [if_neg h0, if_neg hE]

theorem decodeClassE_eq (w : Word) : decodeClassE w =
    if w.n = 0xE then .ok (.skp w.x) else if w.n = 0x1 then .ok (.sknp w.x) else .error (.classE w.n) := by
  unfold decodeClassE
  split
  next h => rw [if_pos h]
  next h => rw [if_neg (by omega), if_pos h]
  next hE h1 => rw [if_neg hE, if_neg h1]

theorem decodeClass8_eq (w : Word) : decodeClass8 w =
    ((class8Ops w.x w.y)[w.n]?).elim (if w.n = 0xE then .ok (.shl w.x) else .error (.class8 w.n)) .ok := by
  unfold decodeClass8
  split
  case h_10 h0 h1 h2 h3 h4 h5 h6 h7 hE =>
    have hlen : (class8Ops w.x w.y).length ≤ w.n := by
      simp only [imp_false] at h0 h1 h2 h3 h4 h5 h6 h7
      simp only [class8Ops, List.length]
      omega
    rw [List.getElem?_eq_none hlen, Option.elim_none, if_neg hE]
  all_goals simp [class8Ops, *]

theorem decodeClassF_eq (w : Word) :
    decodeClassF w = ((classFOps w.x).lookup w.kk).elim (.error (.classF w.kk)) .ok := by
  unfold decodeClassF
  split
  case h_10 =>
    have hmiss : (classFOps w.x).lookup w.kk = none := by
      rw [List.lookup_eq_none_iff]
      simp_all [classFOps]
    rw [hmiss, Option.elim_none]
  all_goals simp [classFOps, List.lookup_cons, *]

/-- Class 0 reads its key alone: bits 11:4, here `a`, take no part (R86). -/
theorem decodeWord_class0 {a k : Nat} (ha : a < 256) (hk : k < 16) : decodeWord (BitVec.ofNat 16 (a * 16 + k)) =
    if k = 0x0 then .ok .cls else if k = 0xE then .ok .ret else .error (.class0 k) := by
  have hcls : Word.cls (BitVec.ofNat 16 (a * 16 + k)) = 0x0 := by rw [Word.cls_ofNat]; omega
  have hkey : Word.n (BitVec.ofNat 16 (a * 16 + k)) = k := by rw [Word.n_ofNat]; omega
  simp [decodeWord, hcls, decodeClass0_eq, hkey]

theorem decodeWord_class8 (x y : Reg) {k : Nat} (hk : k < 16) : decodeWord (formatXY 0x8 x y k) =
    ((class8Ops x y)[k]?).elim (if k = 0xE then .ok (.shl x) else .error (.class8 k)) .ok := by
  simp [decodeWord, decodeClass8_eq, hk]

theorem decodeWord_classE (x y : Reg) {k : Nat} (hk : k < 16) : decodeWord (formatXY 0xE x y k) =
    if k = 0xE then .ok (.skp x) else if k = 0x1 then .ok (.sknp x) else .error (.classE k) := by
  simp [decodeWord, decodeClassE_eq, hk]

theorem decodeWord_classF (x : Reg) {k : Nat} (hk : k < 256) :
    decodeWord (formatXK 0xF x k) = ((classFOps x).lookup k).elim (.error (.classF k)) .ok := by
  simp [decodeWord, decodeClassF_eq, hk]

/-- Settles O20: a key of class 8 or F is looked up in its class's table, and one that the table does not hold misses
(but for 8xyE). -/
theorem stageTwoKeysSelectOrMiss : Obligations.StageTwoKeysSelectOrMiss := by
  refine ⟨fun a k ha hk => decodeWord_class0 ha hk, fun x y k hk => ?class8, fun x y k hk => decodeWord_classE x y hk,
    fun x k hk => ?classF⟩
  case class8 =>
    split
    next i hi => exact (decodeWord_class8 x y hk).trans (by rw [class8Ops, hi, Option.elim_some])
    next hi => exact (decodeWord_class8 x y hk).trans (by rw [class8Ops, hi, Option.elim_none])
  case classF =>
    split
    next i hi => exact (decodeWord_classF x hk).trans (by rw [classFOps, hi, Option.elim_some])
    next hi => exact (decodeWord_classF x hk).trans (by rw [classFOps, hi, Option.elim_none])

end Sys2Proof
end

section
/-! The timers over one cycle: what the execute phase does to them, and the decay that follows it (R104). -/
namespace Sys2Proof.Machine

variable {s t : State}

/-- What an instruction does to the timers: Fx15 sets DT and nothing else, Fx18 sets ST and nothing else, and every other
instruction keeps both, completed or with its fault taken (R175, R176, R201). -/
theorem exec_timers {i : Instr} (h : exec i s = .next t) :
    (∃ x, i = .ldDtVx x ∧ t = { s with dt := s.v x }) ∨ (∃ x, i = .ldStVx x ∧ t = { s with st := s.v x }) ∨
      ((∀ x, i ≠ .ldDtVx x) ∧ (∀ x, i ≠ .ldStVx x) ∧ t.dt = s.dt ∧ t.st = s.st) := by
  cases i
  case ldDtVx x => cases h; exact .inl ⟨x, rfl, rfl⟩
  case ldStVx x => cases h; exact .inr (.inl ⟨x, rfl, rfl⟩)
  all_goals refine .inr (.inr ⟨by simp, by simp, ?_⟩)
  case ret => obtain ⟨-, rfl⟩ | ⟨-, rfl⟩ := execRet_cases h <;> exact ⟨rfl, rfl⟩
  case call nnn => obtain ⟨-, rfl⟩ | ⟨-, rfl⟩ := execCall_cases h <;> exact ⟨rfl, rfl⟩
  case drw x y n =>
    obtain ⟨hframe, -⟩ | ⟨f, -, rfl⟩ := execDrw_cases h
    · rw [hframe]; exact ⟨rfl, rfl⟩
    · exact ⟨rfl, rfl⟩
  case rnd x kk => cases h; exact ⟨rfl, rfl⟩
  case skp x => obtain ⟨-, rfl⟩ | ⟨-, rfl⟩ := execSkp_cases h <;> simp
  case sknp x => obtain ⟨-, rfl⟩ | ⟨-, rfl⟩ := execSknp_cases h <;> simp
  case ldVxKey x => obtain ⟨k, -, rfl⟩ | ⟨-, rfl⟩ := execLdVxKey_cases h <;> exact ⟨rfl, rfl⟩
  case ldBcd x => obtain ⟨-, rfl⟩ | ⟨-, rfl⟩ := execLdBcd_cases h <;> exact ⟨rfl, rfl⟩
  case storeRegs x => obtain ⟨-, rfl⟩ | ⟨-, -, rfl⟩ := execStoreRegs_cases h <;> exact ⟨rfl, rfl⟩
  case loadRegs x =>
    obtain ⟨-, hframe, -⟩ | ⟨-, -, rfl⟩ := execLoadRegs_cases h
    · rw [hframe]; exact ⟨rfl, rfl⟩
    · exact ⟨rfl, rfl⟩
  all_goals cases h; simp

/-- A cycle that fetches `w` and does not fault is a decode miss or an instruction that completes, and ends with the decay
(R90, R103, R104). -/
theorem step_cases_of_unfaulted {w : Word} (h : step s = .next t) (ht : t.fault = none) (hw : s.fetch = .ok w) :
    (∃ m, decodeWord w = .error m ∧ t = (s.latch w).decay) ∨
      ∃ i u, decodeWord w = .ok i ∧ exec i (s.latch w) = .next u ∧ t = u.decay := by
  obtain ⟨-, ⟨f, hf, -⟩ | ⟨w', hw', hcycle⟩⟩ := step_cases h
  · simp [hw] at hf
  · obtain rfl : w = w' := by simpa [hw] using hw'
    obtain hmiss | ⟨i, u, hd, hexec, ⟨r, -, rfl⟩ | ⟨-, rfl⟩⟩ := hcycle
    · exact .inl hmiss
    · simp at ht
    · exact .inr ⟨i, u, hd, hexec, rfl⟩

/-- Settles O7: the decay acts on the timers as the execute phase leaves them, on a miss those from before the cycle. -/
theorem timersDecayOncePerCycle : Obligations.TimersDecayOncePerCycle := by
  intro s t w h ht hw
  obtain ⟨m, hd, rfl⟩ | ⟨i, u, hd, hexec, rfl⟩ := step_cases_of_unfaulted h ht hw
  · simp [hd, toNat_decayed]
  · have hreg (x : Reg) : (s.latch w).v x = s.v x := State.v_congr rfl x
    have hread (x : Reg) (hi : i = .ldVxDt x) : u.decay.v x = s.dt := by
      subst hi
      cases hexec
      exact State.v_setV_same _ x _
    obtain ⟨x, rfl, rfl⟩ | ⟨x, rfl, rfl⟩ | ⟨hdt, hst, hdtKept, hstKept⟩ := exec_timers hexec
    · simp [hd, toNat_decayed, hreg]
    · simp [hd, toNat_decayed, hreg]
    · simpa [hd, toNat_decayed, hdt, hst, hdtKept, hstKept] using hread

end Sys2Proof.Machine
end

section
/-! What CLS does (R120). -/
namespace Sys2Proof.Machine

/-- CLS completes from every state, with the framebuffer cleared (R120). -/
theorem exec_cls (s : State) : exec .cls s = .next s.clearFb := rfl

/-- Clearing replaces the framebuffer and no other field (R120). -/
theorem State.clearFb_frame (s : State) : s.clearFb = { s with fb := s.clearFb.fb } := rfl

/-- Settles O22: the state CLS answers is the cleared one. -/
theorem clsClearsFramebuffer : Obligations.ClsClearsFramebuffer := fun s =>
  ⟨s.clearFb, exec_cls s, fun px py _ _ => s.pixel_clearFb px py, s.clearFb_frame⟩

end Sys2Proof.Machine
end

section
/-! The jumps and the compare-and-skip instructions (R131, R133 to R137): each completes from every state and writes pc
alone. -/
namespace Sys2Proof.Machine

open Sys2Proof.Claims

/-! ### What each of them answers -/

/-- R131. -/
theorem exec_jp (nnn : Nat) (s : State) : exec (.jp nnn) s = .next (s.setPc nnn) := rfl

/-- R137. -/
theorem exec_jpV0 (nnn : Nat) (s : State) : exec (.jpV0 nnn) s = .next (s.setPc ((s.v 0).toNat + nnn)) := rfl

/-- R133. -/
theorem exec_seImm (x : Reg) (kk : Nat) (s : State) :
    exec (.seImm x kk) s = .next (s.skipIf (decide ((s.v x).toNat = kk))) := rfl

/-- R134. -/
theorem exec_sneImm (x : Reg) (kk : Nat) (s : State) :
    exec (.sneImm x kk) s = .next (s.skipIf (decide ((s.v x).toNat ≠ kk))) := rfl

/-- R135. -/
theorem exec_seReg (x y : Reg) (s : State) : exec (.seReg x y) s = .next (s.skipIf (decide (s.v x = s.v y))) := rfl

/-- R136. -/
theorem exec_sneReg (x y : Reg) (s : State) : exec (.sneReg x y) s = .next (s.skipIf (decide (s.v x ≠ s.v y))) := rfl

/-! ### Their frames: only pc is written -/

variable {s : State} {i : Instr}

/-- A target below 65536 is reached without wrapping (R8). -/
theorem jumpsTo_of_exec_setPc {target : Nat} (h : exec i s = .next (s.setPc target)) (hfits : target < 65536) :
    ∃ p : Word, p.toNat = target ∧ JumpsTo i s p :=
  ⟨BitVec.ofNat 16 target, (BitVec.toNat_ofNat target 16).trans (Nat.mod_eq_of_lt hfits), h⟩

/-- A skip on `P` moves pc past one more instruction exactly if `P` holds (R15). -/
theorem jumpsTo_of_exec_skipIf {P : Prop} [Decidable P] (h : exec i s = .next (s.skipIf (decide P))) :
    JumpsTo i s (if P then s.pc + 2 else s.pc) := by
  rw [JumpsTo, h, State.skipIf_eq]
  simp only [decide_eq_true_eq]

/-- Settles O27: `nnn` is below 4096 and V0 below 256, so that neither target wraps. -/
theorem jumpsSetPc : Obligations.JumpsSetPc := by
  intro s nnn hnnn
  have hv0 : (s.v 0).toNat < 256 := (s.v 0).isLt
  exact ⟨jumpsTo_of_exec_setPc (exec_jp nnn s) (by omega), jumpsTo_of_exec_setPc (exec_jpV0 nnn s) (by omega)⟩

/-- Settles O30: each of the four is a skip on its own condition. -/
theorem skipsCompareAndAdvance : Obligations.SkipsCompareAndAdvance := fun s x y kk _ =>
  ⟨jumpsTo_of_exec_skipIf (exec_seImm x kk s), jumpsTo_of_exec_skipIf (exec_sneImm x kk s),
    jumpsTo_of_exec_skipIf (exec_seReg x y s), jumpsTo_of_exec_skipIf (exec_sneReg x y s)⟩

end Sys2Proof.Machine
end

section
/-! The instructions of 43_alu.md that write one register and no flag: the loads, the add of an immediate and the bitwise
operations (R140 to R145). -/
namespace Sys2Proof.Machine

open Sys2Proof.Claims

/-! ### What each of them answers -/

/-- R140. -/
theorem exec_ldImm (x : Reg) (kk : Nat) (s : State) : exec (.ldImm x kk) s = .next (s.setV x (immByte kk)) := rfl

/-- R141. -/
theorem exec_addImm (x : Reg) (kk : Nat) (s : State) :
    exec (.addImm x kk) s = .next (s.setV x (BitVec.ofNat 8 ((s.v x).toNat + kk))) := rfl

/-- R142. -/
theorem exec_ldReg (x y : Reg) (s : State) : exec (.ldReg x y) s = .next (s.setV x (s.v y)) := rfl

/-- R143. -/
theorem exec_orReg (x y : Reg) (s : State) : exec (.orReg x y) s = .next (s.setV x (s.v x ||| s.v y)) := rfl

/-- R144. -/
theorem exec_andReg (x y : Reg) (s : State) : exec (.andReg x y) s = .next (s.setV x (s.v x &&& s.v y)) := rfl

/-- R145. -/
theorem exec_xorReg (x y : Reg) (s : State) : exec (.xorReg x y) s = .next (s.setV x (s.v x ^^^ s.v y)) := rfl

/-! ### Their frame: only Vx is written -/

/-- A register write replaces the register file and no other field (R20). -/
theorem State.setV_frame (s : State) (x : Reg) (b : Byte) : s.setV x b = { s with V := (s.setV x b).V } := rfl

/-- An immediate below 256 is its own byte (R8). -/
theorem toNat_immByte {kk : Nat} (h : kk < 256) : (immByte kk).toNat = kk :=
  (BitVec.toNat_ofNat kk 8).trans (Nat.mod_eq_of_lt h)

/-- An instruction that answers a register write sets that register and nothing else, VF only if it is the register. -/
theorem setsReg_of_exec_setV {i : Instr} {s : State} {x : Reg} {b : Byte} (h : exec i s = .next (s.setV x b)) :
    SetsReg i s x b :=
  ⟨s.setV x b, h, s.v_setV_same x b, fun r hr => s.v_setV_ne x r b hr, s.setV_frame x b⟩

/-- Settles O31: each of the six answers one register write; the two immediate forms' bytes are read off as numbers. -/
theorem loadsAddImmediateAndLogicSetOneRegister : Obligations.LoadsAddImmediateAndLogicSetOneRegister := by
  intro s x y kk hkk
  refine ⟨⟨immByte kk, toNat_immByte hkk, ?ldImm⟩,
    ⟨BitVec.ofNat 8 ((s.v x).toNat + kk), BitVec.toNat_ofNat _ 8, ?addImm⟩, ?ldReg, ?orReg, ?andReg, ?xorReg⟩
  case ldImm => exact setsReg_of_exec_setV (exec_ldImm x kk s)
  case addImm => exact setsReg_of_exec_setV (exec_addImm x kk s)
  case ldReg => exact setsReg_of_exec_setV (exec_ldReg x y s)
  case orReg => exact setsReg_of_exec_setV (exec_orReg x y s)
  case andReg => exact setsReg_of_exec_setV (exec_andReg x y s)
  case xorReg => exact setsReg_of_exec_setV (exec_xorReg x y s)

end Sys2Proof.Machine
end

section
/-! The loads of the index register, LD I and LD F (R160, R162): each writes I alone, with a number that 16 bits hold. -/
namespace Sys2Proof.Machine

/-! ### What each of them answers -/

/-- R160. -/
theorem exec_ldI (nnn : Nat) (s : State) : exec (.ldI nnn) s = .next (s.setI nnn) := rfl

/-- R162. -/
theorem exec_ldFont (x : Reg) (s : State) : exec (.ldFont x) s = .next (s.setI (glyphAddr (s.v x))) := rfl

/-! ### Their frame: only I is written -/

/-- A write of I replaces I and no other field. -/
theorem State.setI_frame (s : State) (n : Nat) : s.setI n = { s with I := (s.setI n).I } := rfl

/-- I takes a number below 65536 as it is (R8). -/
theorem State.toNat_setI_I_of_lt (s : State) {n : Nat} (h : n < 65536) : (s.setI n).I.toNat = n := by
  rw [State.setI_I, BitVec.toNat_ofNat, Nat.mod_eq_of_lt h]

/-- The highest glyph address, for Vx = 0xFF, is 0x54B: Vx needs no mask for the address to fit (R162). -/
theorem glyphAddr_lt (b : Byte) : glyphAddr b < 65536 := by
  have hb := b.isLt
  simp only [glyphAddr, Config.fontBase, Config.glyphBytes]
  omega

/-- Settles O38: neither `nnn` nor the glyph address wraps in I. -/
theorem indexLoadsSetI : Obligations.IndexLoadsSetI := fun s x nnn hnnn =>
  ⟨⟨s.setI nnn, exec_ldI nnn s, s.toNat_setI_I_of_lt (by omega), s.setI_frame nnn⟩,
    ⟨s.setI (glyphAddr (s.v x)), exec_ldFont x s, s.toNat_setI_I_of_lt (glyphAddr_lt _), s.setI_frame _⟩⟩

end Sys2Proof.Machine
end

section
/-! The moves between a register and a timer (R173, R175, R176), and the decay that follows a timer write (R104). -/
namespace Sys2Proof.Machine

/-- R173: the DT that Fx07 reads is the one from before the cycle's decay. -/
theorem exec_ldVxDt (x : Reg) (s : State) : exec (.ldVxDt x) s = .next (s.setV x s.dt) := rfl

/-- R175. -/
theorem exec_ldDtVx (x : Reg) (s : State) : exec (.ldDtVx x) s = .next { s with dt := s.v x } := rfl

/-- R176. -/
theorem exec_ldStVx (x : Reg) (s : State) : exec (.ldStVx x) s = .next { s with st := s.v x } := rfl

/-- Settles O49: Fx07 is one register write; Fx15 and Fx18 leave Vx in their timer, and one decay takes it down by 1, not
below 0. -/
theorem timerMovesReadAndWrite : Obligations.TimerMovesReadAndWrite := by
  intro s x
  refine ⟨?readDt, ⟨{ s with dt := s.v x }, exec_ldDtVx x s, rfl, ?decayDt, rfl⟩,
    ⟨{ s with st := s.v x }, exec_ldStVx x s, rfl, ?decaySt, rfl⟩⟩
  case readDt => exact setsReg_of_exec_setV (exec_ldVxDt x s)
  case decayDt => exact toNat_decayed (s.v x)
  case decaySt => exact toNat_decayed (s.v x)

end Sys2Proof.Machine
end

section
/-! The decoder against the encoder: the word of an instruction decodes to it, and a word decodes to exactly the
well-formed instruction whose word agrees with it on the bits that are read (R82, R83, R91). -/
namespace Sys2Proof

/-! ### A word from its bytes and from its fields (R64, R81, R82) -/

@[simp] theorem Word.ofBytes_hiByte_loByte (w : Word) : Word.ofBytes w.hiByte w.loByte = w := by
  have hw := w.isLt
  apply BitVec.eq_of_toNat_eq
  simp only [Word.toNat_ofBytes, Word.hiByte, Word.loByte, Word.bitsAt, BitVec.toNat_ofNat]
  omega

theorem Word.cls_lt (w : Word) : w.cls < 16 := Nat.mod_lt _ (by decide)
theorem Word.n_lt (w : Word) : w.n < 16 := Nat.mod_lt _ (by decide)
theorem Word.kk_lt (w : Word) : w.kk < 256 := Nat.mod_lt _ (by decide)
theorem Word.nnn_lt (w : Word) : w.nnn < 4096 := Nat.mod_lt _ (by decide)

theorem Word.formatA_fields (w : Word) : formatA w.cls w.nnn = w := by
  have hw := w.isLt
  apply BitVec.eq_of_toNat_eq
  rw [formatA, BitVec.toNat_ofNat, Word.cls_eq, Word.nnn_eq]
  omega

theorem Word.formatXK_fields (w : Word) : formatXK w.cls w.x w.kk = w := by
  have hw := w.isLt
  apply BitVec.eq_of_toNat_eq
  rw [formatXK, BitVec.toNat_ofNat, Word.cls_eq, Word.x_val, Word.kk_eq]
  omega

theorem Word.formatXY_fields (w : Word) : formatXY w.cls w.x w.y w.n = w := by
  have hw := w.isLt
  apply BitVec.eq_of_toNat_eq
  rw [formatXY, BitVec.toNat_ofNat, Word.cls_eq, Word.x_val, Word.y_val, Word.n_eq]
  omega

/-- A byte of two nibbles fills the fields y and n. -/
theorem formatXK_nibbles (c : Nat) (x y : Reg) (n : Nat) : formatXK c x (y.val * 16 + n) = formatXY c x y n := by
  simp only [formatXK, formatXY, Nat.add_assoc]

theorem encode_skp (x : Reg) : encode (.skp x) = formatXY 0xE x 9 0xE := formatXK_nibbles 0xE x 9 0xE

theorem encode_sknp (x : Reg) : encode (.sknp x) = formatXY 0xE x 10 0x1 := formatXK_nibbles 0xE x 10 0x1

/-! ### Decoding what the encoder emits -/

theorem decodeWord_encode {i : Instr} (h : i.wf = true) : decodeWord (encode i) = .ok i := by
  cases i
  case cls => rfl
  case ret => rfl
  case jp nnn => exact (decodeWord_formatA (of_decide_eq_true h)).1
  case call nnn => exact (decodeWord_formatA (of_decide_eq_true h)).2.1
  case ldI nnn => exact (decodeWord_formatA (of_decide_eq_true h)).2.2.1
  case jpV0 nnn => exact (decodeWord_formatA (of_decide_eq_true h)).2.2.2
  case seImm x kk => exact (decodeWord_formatXK x (of_decide_eq_true h)).1
  case sneImm x kk => exact (decodeWord_formatXK x (of_decide_eq_true h)).2.1
  case ldImm x kk => exact (decodeWord_formatXK x (of_decide_eq_true h)).2.2.1
  case addImm x kk => exact (decodeWord_formatXK x (of_decide_eq_true h)).2.2.2.1
  case rnd x kk => exact (decodeWord_formatXK x (of_decide_eq_true h)).2.2.2.2
  case seReg x y => exact (decodeWord_formatXY x y (n := 0) (by decide)).1
  case sneReg x y => exact (decodeWord_formatXY x y (n := 0) (by decide)).2.1
  case drw x y n => exact (decodeWord_formatXY x y (of_decide_eq_true h)).2.2
  case skp x => exact encode_skp x ▸ decodeWord_classE x 9 (by decide)
  case sknp x => exact encode_sknp x ▸ decodeWord_classE x 10 (by decide)
  case ldReg x y | orReg x y | andReg x y | xorReg x y | addReg x y | subReg x y | subnReg x y =>
    exact decodeWord_class8 x y (by decide)
  case shr x | shl x => exact decodeWord_class8 x 0 (by decide)
  all_goals exact decodeWord_classF _ (by decide)

/-- Settles O14: the two bytes are the encoded word's (R64), and that word decodes to its instruction. -/
theorem decodeInvertsEncode : Obligations.DecodeInvertsEncode := by
  intro i rest h
  simp [encodeBytes, decode, decodeWord_encode h]

end Sys2Proof
end

section
/-! What a word decodes to, as one equivalence: the well-formed instruction whose word agrees with it on the bits of
`Instr.readMask`. The ignored bits of R91 and the opcode table of R83 follow from it. -/
namespace Sys2Proof

/-! ### Agreement on a mask, as agreement of fields -/

/-- Masking bits 15 to k and bits j - 1 to 0 reads the number above `2 ^ k` and the one below `2 ^ j`. -/
theorem toNat_and_high_low (w : Word) {j k : Nat} (hjk : j ≤ k) (hk : k ≤ 16) :
    w.toNat &&& ((2 ^ (16 - k) - 1) <<< k ||| (2 ^ j - 1)) = w.toNat / 2 ^ k * 2 ^ k + w.toNat % 2 ^ j := by
  have hlow : w.toNat % 2 ^ j < 2 ^ k :=
    Nat.lt_of_lt_of_le (Nat.mod_lt _ (Nat.two_pow_pos j)) (Nat.pow_le_pow_right (by omega) hjk)
  rw [Nat.and_or_distrib_left, Nat.and_two_pow_sub_one_eq_mod, toNat_and_high w k _ rfl hk, ← Nat.shiftLeft_eq,
    ← Nat.shiftLeft_add_eq_or_of_lt hlow]

theorem and_F00F_eq_iff {w w' : Word} : w &&& 0xF00F = w' &&& 0xF00F ↔ w.cls = w'.cls ∧ w.n = w'.n := by
  have hn := w.n_lt
  have hn' := w'.n_lt
  rw [← BitVec.toNat_inj, toNat_and_F00F, toNat_and_F00F]
  omega

theorem and_FFF0_eq_iff {w w' : Word} : w &&& 0xFFF0 = w' &&& 0xFFF0 ↔ w.cls = w'.cls ∧ w.x = w'.x ∧ w.y = w'.y := by
  have hmask (v : Word) : (v &&& 0xFFF0).toNat = v.toNat / 2 ^ 4 * 2 ^ 4 :=
    (BitVec.toNat_and v _).trans (toNat_and_high v 4 _ (by decide) (by decide))
  have hw := w.isLt
  have hw' := w'.isLt
  rw [← BitVec.toNat_inj, hmask, hmask, Fin.ext_iff, Fin.ext_iff, Word.cls_eq, Word.cls_eq, Word.x_val, Word.x_val,
    Word.y_val, Word.y_val]
  omega

theorem and_FF0F_eq_iff {w w' : Word} : w &&& 0xFF0F = w' &&& 0xFF0F ↔ w.cls = w'.cls ∧ w.x = w'.x ∧ w.n = w'.n := by
  have hmask (v : Word) : (v &&& 0xFF0F).toNat = v.toNat / 2 ^ 8 * 2 ^ 8 + v.toNat % 2 ^ 4 :=
    (BitVec.toNat_and v _).trans (toNat_and_high_low v (j := 4) (k := 8) (by decide) (by decide))
  have hw := w.isLt
  have hw' := w'.isLt
  rw [← BitVec.toNat_inj, hmask, hmask, Fin.ext_iff, Word.cls_eq, Word.cls_eq, Word.x_val, Word.x_val, Word.n_eq,
    Word.n_eq]
  omega

theorem and_FFFF_eq_iff {w w' : Word} : w &&& 0xFFFF = w' &&& 0xFFFF ↔ w = w' := by
  rw [show (0xFFFF : Word) = BitVec.allOnes 16 from rfl, BitVec.and_allOnes, BitVec.and_allOnes]

/-! ### The equivalence -/

/-- `w` and the word of `i` agree on the bits that `i` reads. -/
def AgreesOnReadBits (w : Word) (i : Instr) : Prop := encode i &&& i.readMask = w &&& i.readMask

section Sound

variable {w : Word} {i : Instr}

/-- A word is written by its class, its two registers and its key. -/
theorem formatXY_of_cls_n {c k : Nat} (hc : w.cls = c) (hk : w.n = k) : formatXY c w.x w.y k = w := by
  rw [← hc, ← hk, w.formatXY_fields]

theorem formatXK_of_cls_kk {c k : Nat} (hc : w.cls = c) (hk : w.kk = k) : formatXK c w.x k = w := by
  rw [← hc, ← hk, w.formatXK_fields]

theorem decodeClass0_sound (hc : w.cls = 0x0) (h : decodeClass0 w = .ok i) : i.wf = true ∧ AgreesOnReadBits w i := by
  unfold decodeClass0 at h
  split at h <;> cases h
  next hn => exact ⟨rfl, and_F00F_eq_iff.2 ⟨hc.symm, hn.symm⟩⟩
  next hn => exact ⟨rfl, and_F00F_eq_iff.2 ⟨hc.symm, hn.symm⟩⟩

theorem decodeClass8_sound (hc : w.cls = 0x8) (h : decodeClass8 w = .ok i) : i.wf = true ∧ AgreesOnReadBits w i := by
  unfold decodeClass8 at h
  split at h <;> cases h
  case h_7 hn | h_9 hn => exact ⟨rfl, and_FF0F_eq_iff.2 (by simp [encode, hc, hn])⟩
  all_goals exact ⟨rfl, and_FFFF_eq_iff.2 (formatXY_of_cls_n hc ‹_›)⟩

theorem decodeClassE_sound (hc : w.cls = 0xE) (h : decodeClassE w = .ok i) : i.wf = true ∧ AgreesOnReadBits w i := by
  unfold decodeClassE at h
  split at h <;> cases h
  next hn => exact ⟨rfl, and_FF0F_eq_iff.2 (by simp [encode_skp, hc, hn])⟩
  next hn => exact ⟨rfl, and_FF0F_eq_iff.2 (by simp [encode_sknp, hc, hn])⟩

theorem decodeClassF_sound (hc : w.cls = 0xF) (h : decodeClassF w = .ok i) : i.wf = true ∧ AgreesOnReadBits w i := by
  unfold decodeClassF at h
  split at h <;> cases h
  all_goals exact ⟨rfl, and_FFFF_eq_iff.2 (formatXK_of_cls_kk hc ‹_›)⟩

/-- What a word decodes to is well-formed, and its own word agrees with it on the bits that are read. -/
theorem decodeWord_sound (h : decodeWord w = .ok i) : i.wf = true ∧ AgreesOnReadBits w i := by
  have hA {c : Nat} (hc : w.cls = c) : formatA c w.nnn = w := hc ▸ w.formatA_fields
  have hXK {c : Nat} (hc : w.cls = c) : formatXK c w.x w.kk = w := hc ▸ w.formatXK_fields
  unfold decodeWord at h
  split at h
  case h_1 hc => exact decodeClass0_sound hc h
  case h_9 hc => exact decodeClass8_sound hc h
  case h_15 hc => exact decodeClassE_sound hc h
  case h_16 =>
    have hlt := w.cls_lt
    have hc : w.cls = 0xF := by simp only [imp_false] at *; omega
    exact decodeClassF_sound hc h
  all_goals cases h
  case h_6 hc | h_10 hc => exact ⟨rfl, and_FFF0_eq_iff.2 (by simp [encode, hc])⟩
  case h_14 hc => exact ⟨decide_eq_true w.n_lt, and_FFFF_eq_iff.2 (formatXY_of_cls_n hc rfl)⟩
  case h_2 hc | h_3 hc | h_11 hc | h_12 hc => exact ⟨decide_eq_true w.nnn_lt, and_FFFF_eq_iff.2 (hA hc)⟩
  all_goals exact ⟨decide_eq_true w.kk_lt, and_FFFF_eq_iff.2 (hXK ‹_›)⟩

/-- A word that agrees with a well-formed instruction's word on the bits it reads decodes to that instruction. -/
theorem decodeWord_of_agrees (hwf : i.wf = true) (h : AgreesOnReadBits w i) : decodeWord w = .ok i := by
  cases i
  case cls | ret =>
    obtain ⟨hc, hn⟩ := and_F00F_eq_iff.1 h
    rw [decodeWord, ← hc]
    exact (decodeClass0_eq w).trans (hn ▸ rfl)
  case seReg x y | sneReg x y =>
    obtain ⟨hc, hx, hy⟩ := and_FFF0_eq_iff.1 h
    simp [decodeWord, ← hc, ← hx, ← hy, encode]
  case shr x | shl x =>
    obtain ⟨hc, hx, hn⟩ := and_FF0F_eq_iff.1 h
    simp [decodeWord, decodeClass8, ← hc, ← hx, ← hn, encode]
  case skp x | sknp x =>
    obtain ⟨hc, hx, hn⟩ := and_FF0F_eq_iff.1 h
    simp [decodeWord, decodeClassE, ← hc, ← hx, ← hn, encode_skp, encode_sknp]
  all_goals exact and_FFFF_eq_iff.1 h ▸ decodeWord_encode hwf

end Sound

/-- Settles O15. -/
theorem decodeKeepsEveryReadBit : Obligations.DecodeKeepsEveryReadBit := fun _ _ h => (decodeWord_sound h).2

/-- Settles O16: a word that agrees with `w` on the read bits agrees with the instruction's own word on them. -/
theorem ignoredBitsSelectNothing : Obligations.IgnoredBitsSelectNothing := by
  intro w w' i h hbits
  obtain ⟨hwf, hagree⟩ := decodeWord_sound h
  exact decodeWord_of_agrees hwf (hagree.trans hbits.symm)

/-- Settles O17. -/
theorem decodedInstructionIsWellFormed : Obligations.DecodedInstructionIsWellFormed := fun _ _ h =>
  (decodeWord_sound h).1

/-- Settles O21: the dispatch of each word, and of its one miss, evaluated. -/
theorem specWordsDecode : Obligations.SpecWordsDecode := by
  unfold Obligations.SpecWordsDecode
  decide

/-! ### The opcode table (R83) -/

/-- The row of every instruction reads only bits that the instruction reads. -/
theorem Instr.row_mask_and_readMask (i : Instr) : i.readMask &&& i.row.mask = i.row.mask := by
  cases i <;> simp only [Instr.readMask, Instr.row] <;> decide

/-- The row of every instruction is that of its sample in the table. -/
theorem Instr.row_mem_opcodeTable (i : Instr) : i.row ∈ opcodeTable := by
  cases i <;> simp [opcodeTable, opcodeSamples, Instr.row]

/-- The encoded word of a well-formed instruction matches its row, instruction by instruction (R83, R93). -/
theorem encode_matches_row : ∀ i : Instr, Laws.RowMatch.Statement i
  | .cls => Laws.RowMatch.cls
  | .ret => Laws.RowMatch.ret
  | .jp nnn => Laws.RowMatch.jp nnn
  | .call nnn => Laws.RowMatch.call nnn
  | .seImm x kk => Laws.RowMatch.seImm x kk
  | .sneImm x kk => Laws.RowMatch.sneImm x kk
  | .seReg x y => Laws.RowMatch.seReg x y
  | .ldImm x kk => Laws.RowMatch.ldImm x kk
  | .addImm x kk => Laws.RowMatch.addImm x kk
  | .ldReg x y => Laws.RowMatch.ldReg x y
  | .orReg x y => Laws.RowMatch.orReg x y
  | .andReg x y => Laws.RowMatch.andReg x y
  | .xorReg x y => Laws.RowMatch.xorReg x y
  | .addReg x y => Laws.RowMatch.addReg x y
  | .subReg x y => Laws.RowMatch.subReg x y
  | .shr x => Laws.RowMatch.shr x
  | .subnReg x y => Laws.RowMatch.subnReg x y
  | .shl x => Laws.RowMatch.shl x
  | .sneReg x y => Laws.RowMatch.sneReg x y
  | .ldI nnn => Laws.RowMatch.ldI nnn
  | .jpV0 nnn => Laws.RowMatch.jpV0 nnn
  | .rnd x kk => Laws.RowMatch.rnd x kk
  | .drw x y n => Laws.RowMatch.drw x y n
  | .skp x => Laws.RowMatch.skp x
  | .sknp x => Laws.RowMatch.sknp x
  | .ldVxDt x => Laws.RowMatch.ldVxDt x
  | .ldVxKey x => Laws.RowMatch.ldVxKey x
  | .ldDtVx x => Laws.RowMatch.ldDtVx x
  | .ldStVx x => Laws.RowMatch.ldStVx x
  | .addI x => Laws.RowMatch.addI x
  | .ldFont x => Laws.RowMatch.ldFont x
  | .ldBcd x => Laws.RowMatch.ldBcd x
  | .storeRegs x => Laws.RowMatch.storeRegs x
  | .loadRegs x => Laws.RowMatch.loadRegs x

/-- A word that decodes matches the row of its instruction. -/
theorem decodeWord_matches_row {w : Word} {i : Instr} (h : decodeWord w = .ok i) :
    w &&& i.row.mask = i.row.pattern := by
  obtain ⟨hwf, hagree⟩ := decodeWord_sound h
  calc w &&& i.row.mask
      = (w &&& i.readMask) &&& i.row.mask := by rw [BitVec.and_assoc, i.row_mask_and_readMask]
    _ = (encode i &&& i.readMask) &&& i.row.mask := by rw [hagree]
    _ = encode i &&& i.row.mask := by rw [BitVec.and_assoc, i.row_mask_and_readMask]
    _ = i.row.pattern := encode_matches_row i hwf

/-- What `op & 0xF000 = p` says of the fields of `op`. -/
theorem cls_of_match {w p : Word} (h : w &&& 0xF000 = p) : w.cls = p.toNat / 4096 := by
  rw [← h, toNat_and_F000]
  omega

theorem cls_n_of_match {w p : Word} (h : w &&& 0xF00F = p) : w.cls = p.toNat / 4096 ∧ w.n = p.toNat % 4096 := by
  have hn := w.n_lt
  rw [← h, toNat_and_F00F]
  omega

theorem cls_kk_of_match {w p : Word} (h : w &&& 0xF0FF = p) : w.cls = p.toNat / 4096 ∧ w.kk = p.toNat % 4096 := by
  have hkk := w.kk_lt
  rw [← h, toNat_and_F0FF]
  omega

/-- A word that matches the row of `i` decodes to an instruction of that row, with operands of its own. -/
theorem decodeWord_row_of_match {w : Word} {i : Instr} (h : w &&& i.row.mask = i.row.pattern) :
    (decodeWord w).map Instr.row = .ok i.row := by
  cases i
  case cls | ret | ldReg | orReg | andReg | xorReg | addReg | subReg | shr | subnReg | shl | skp | sknp =>
    obtain ⟨hc, hn⟩ := cls_n_of_match h
    simp [decodeWord, decodeClass0, decodeClass8, decodeClassE, hc, hn, Except.map, Instr.row]
  case ldVxDt | ldVxKey | ldDtVx | ldStVx | addI | ldFont | ldBcd | storeRegs | loadRegs =>
    obtain ⟨hc, hkk⟩ := cls_kk_of_match h
    simp [decodeWord, decodeClassF, hc, hkk, Except.map, Instr.row]
  all_goals simp [decodeWord, cls_of_match h, Except.map, Instr.row]

theorem mem_opcodeTable {r : OpcodeRow} (h : r ∈ opcodeTable) : ∃ i : Instr, i.row = r := by
  obtain ⟨i, -, hi⟩ := List.mem_map.1 h
  exact ⟨i, hi⟩

theorem decodeWord_row_of_mem {w : Word} {r : OpcodeRow} (hr : r ∈ opcodeTable) (h : w &&& r.mask = r.pattern) :
    (decodeWord w).map Instr.row = .ok r := by
  obtain ⟨i, rfl⟩ := mem_opcodeTable hr
  exact decodeWord_row_of_match h

/-- Settles O18: a row that a word matches is the row of what the word decodes to, so that two such rows are one. -/
theorem opcodeTableSelectsOneRowOrNone : Obligations.OpcodeTableSelectsOneRowOrNone := by
  refine ⟨rfl, by decide, fun w => ⟨?one, fun i h => ⟨i.row_mem_opcodeTable, decodeWord_matches_row h⟩, ?miss⟩⟩
  case one =>
    intro r hr r' hr' h h'
    exact Except.ok.inj ((decodeWord_row_of_mem hr h).symm.trans (decodeWord_row_of_mem hr' h'))
  case miss =>
    constructor
    · rintro ⟨m, hm⟩ r hr h
      have hrow := decodeWord_row_of_mem hr h
      rw [hm] at hrow
      cases hrow
    · intro hnone
      cases hd : decodeWord w with
      | error m => exact ⟨m, rfl⟩
      | ok i => exact absurd (decodeWord_matches_row hd) (hnone i.row i.row_mem_opcodeTable)

end Sys2Proof
end

section
/-! What each instruction leaves unchanged (the frame rule): one statement for all of them, from which the whole-machine
frames follow. -/
namespace Sys2Proof.Machine

open Sys2Proof.Claims

/-- The instructions that may set pc: the jumps, the skips, and the waiting Fx0A (R23, R24). -/
def movesPc : Instr → Bool
  | .ret | .jp _ | .call _ | .seImm _ _ | .sneImm _ _ | .seReg _ _ | .sneReg _ _ | .jpV0 _ | .skp _ | .sknp _
  | .ldVxKey _ => true
  | _ => false

/-- What an instruction that completes may change at most: the registers of R22's table, I, pc, the framebuffer, memory, SP
and the stack each only by their own instructions, and never the keypad or the fault status. -/
structure CompletesWithin (i : Instr) (s t : State) : Prop where
  fault : t.fault = s.fault := by intros; rfl
  key : t.key = s.key := by intros; rfl
  reg : ∀ r, ¬ writesReg i r → t.v r = s.v r := by intros; rfl
  index : (∀ nnn, i ≠ .ldI nnn) → (∀ x, i ≠ .addI x) → (∀ x, i ≠ .ldFont x) → t.I = s.I := by intros; rfl
  pc : movesPc i = false → t.pc = s.pc := by intros; rfl
  fb : i ≠ .cls → (∀ x y n, i ≠ .drw x y n) → t.fb = s.fb := by intros; rfl
  mem : (∀ x, i ≠ .ldBcd x) → (∀ x, i ≠ .storeRegs x) → t.mem = s.mem := by intros; rfl
  sp : (∀ nnn, i ≠ .call nnn) → i ≠ .ret → t.sp = s.sp := by intros; rfl
  stack : (∀ nnn, i ≠ .call nnn) → i ≠ .ret → t.stack = s.stack := by intros; rfl

namespace CompletesWithin

variable {i : Instr} {s t : State}

/-- A change of registers in R22's table, and of nothing else but the count of draws, is within the bounds of `i`. -/
theorem of_regs (h : t = { s with V := t.V, draws := t.draws }) (hreg : ∀ r, ¬ writesReg i r → t.v r = s.v r) :
    CompletesWithin i s t := by
  rw [h] at hreg ⊢
  exact { reg := hreg }

theorem setV {x : Reg} {b : Byte} (hx : writesReg i x) : CompletesWithin i s (s.setV x b) :=
  of_regs rfl fun r hr => s.v_setV_ne x r b fun e => hr (e ▸ hx)

theorem setFlag_setV {x : Reg} {f b : Byte} (hx : writesReg i x) (hf : writesReg i 15) :
    CompletesWithin i s ((s.setFlag f).setV x b) := by
  refine of_regs rfl fun r hr => ?_
  have hrx : r ≠ x := fun e => hr (e ▸ hx)
  have hrf : r ≠ 15 := fun e => hr (e ▸ hf)
  rw [State.v_setV_ne _ x r b hrx, State.v_setFlag, if_neg hrf]

/-- A change of pc alone, by an instruction that may set it. -/
theorem of_pc (hi : movesPc i = true) (h : t = { s with pc := t.pc }) : CompletesWithin i s t := by
  rw [h]
  exact { pc := by simp [hi] }

theorem skipIf (hi : movesPc i = true) (c : Bool) : CompletesWithin i s (s.skipIf c) :=
  of_pc hi (by rw [State.skipIf_eq])

end CompletesWithin

/-- Every instruction answers its completed state, within its bounds, or takes a fault that it can raise (R200, R201). -/
theorem exec_cases {i : Instr} {s t : State} (h : exec i s = .next t) :
    CompletesWithin i s t ∨ ∃ f, CanRaise i s f ∧ t = s.takeFault f := by
  cases i
  case ret =>
    obtain ⟨hsp, rfl⟩ | ⟨-, rfl⟩ := execRet_cases h
    · exact .inr ⟨.stackUnderflow, hsp, rfl⟩
    · exact .inl { pc := by simp [movesPc], sp := by simp, stack := by simp }
  case call nnn =>
    obtain ⟨hsp, rfl⟩ | ⟨-, rfl⟩ := execCall_cases h
    · exact .inr ⟨.stackOverflow, hsp, rfl⟩
    · exact .inl { pc := by simp [movesPc], sp := by simp, stack := by simp }
  case drw x y n =>
    obtain ⟨hframe, hreg⟩ | hraise := execDrw_cases h
    · rw [hframe] at hreg ⊢
      exact .inl { reg := hreg, fb := by simp }
    · exact .inr hraise
  case ldBcd x =>
    obtain ⟨-, rfl⟩ | ⟨hI, rfl⟩ := execLdBcd_cases h
    · exact .inl { mem := by simp }
    · exact .inr ⟨.memoryOutOfBounds .write _, ⟨rfl, by omega⟩, rfl⟩
  case storeRegs x =>
    obtain ⟨-, rfl⟩ | ⟨hx, hI, rfl⟩ := execStoreRegs_cases h
    · exact .inl { mem := by simp }
    · exact .inr ⟨.memoryOutOfBounds .write _, ⟨rfl, by omega⟩, rfl⟩
  case loadRegs x =>
    obtain ⟨-, hframe, hv⟩ | ⟨hx, hI, rfl⟩ := execLoadRegs_cases h
    · exact .inl (.of_regs (by rw [hframe]) fun r hr => (hv r).trans (if_neg hr))
    · exact .inr ⟨.memoryOutOfBounds .read _, ⟨rfl, by omega⟩, rfl⟩
  case skp x =>
    obtain ⟨-, rfl⟩ | ⟨hk, rfl⟩ := execSkp_cases h
    · exact .inl (.skipIf rfl _)
    · exact .inr ⟨.keypadIndexOutOfRange _, ⟨rfl, hk⟩, rfl⟩
  case sknp x =>
    obtain ⟨-, rfl⟩ | ⟨hk, rfl⟩ := execSknp_cases h
    · exact .inl (.skipIf rfl _)
    · exact .inr ⟨.keypadIndexOutOfRange _, ⟨rfl, hk⟩, rfl⟩
  case ldVxKey x =>
    obtain ⟨k, -, rfl⟩ | ⟨-, rfl⟩ := execLdVxKey_cases h
    · exact .inl (.setV rfl)
    · exact .inl (.of_pc rfl rfl)
  all_goals
    cases h
    refine .inl ?_
  case cls => exact { fb := by simp }
  case jp | jpV0 => exact .of_pc rfl rfl
  case ldDtVx | ldStVx => exact {}
  case seImm | sneImm | seReg | sneReg => exact .skipIf rfl _
  case ldImm | addImm | ldReg | orReg | andReg | xorReg | ldVxDt => exact .setV rfl
  case addReg | subReg | shr | subnReg | shl => exact .setFlag_setV (.inr rfl) (.inl rfl)
  case rnd x kk => exact .of_regs rfl fun r hr => State.v_setV_ne _ x r _ hr
  case ldI | addI | ldFont => exact { index := by simp }

variable {i : Instr} {s t : State}

/-! ### The whole-machine frames -/

/-- Settles O51: a taken fault keeps every register. -/
theorem onlyListedRegistersAreWritten : Obligations.OnlyListedRegistersAreWritten := by
  intro i s t r h hr
  obtain hc | ⟨f, -, rfl⟩ := exec_cases h
  · exact hc.reg r hr
  · rfl

/-- Settles O52. -/
theorem onlyCallAndRetTouchStack : Obligations.OnlyCallAndRetTouchStack := by
  intro i s t h hcall hret
  obtain hc | ⟨f, -, rfl⟩ := exec_cases h
  · exact ⟨hc.sp hcall hret, hc.stack hcall hret⟩
  · exact ⟨rfl, rfl⟩

/-- Settles O53. -/
theorem onlyTheirInstructionsWriteIndexDisplayMemory :
    Obligations.OnlyTheirInstructionsWriteIndexDisplayMemory := by
  intro i s t h
  obtain hc | ⟨f, -, rfl⟩ := exec_cases h
  · exact ⟨hc.index, hc.fb, hc.mem⟩
  · exact ⟨fun _ _ _ => rfl, fun _ _ => rfl, fun _ _ => rfl⟩

/-! ### The faults of an instruction (R200, R201) -/

/-- What taking a fault leaves is what `Raises` says. -/
theorem raises_of_takeFault {f : Fault} (h : exec i s = .next (s.takeFault f)) : Raises i s f := h

/-- An instruction after which a fault is recorded, where none was, has taken one that it can raise. -/
theorem exec_faulted {r : FaultRecord} (hs : s.fault = none) (h : exec i s = .next t) (hr : t.fault = some r) :
    CanRaise i s r.fault ∧ t = s.takeFault r.fault := by
  obtain hc | ⟨f, hf, rfl⟩ := exec_cases h
  · rw [hc.fault, hs] at hr
    cases hr
  · cases hr
    exact ⟨hf, rfl⟩

/-- Settles O9. -/
theorem instructionsRaiseOnlyListedFaults : Obligations.InstructionsRaiseOnlyListedFaults := by
  intro i s t r hs h hr
  obtain ⟨hcan, rfl⟩ := exec_faulted hs h hr
  exact ⟨hcan, raises_of_takeFault h⟩

end Sys2Proof.Machine
end

section
/-! One cycle: what it answers in each of its phases (R100 to R107), what a faulting one leaves (R105, R201), and what
`cycle()` returns to the host (R46). -/
namespace Sys2Proof.Machine

open Sys2Proof.Claims

variable {s t : State}

/-! ### The phases of a step -/

/-- The model's decay of a timer is the claims' `lessOne` (R104). -/
theorem decayed_eq_lessOne (b : Byte) : decayed b = lessOne b := by
  have hb := b.isLt
  apply BitVec.eq_of_toNat_eq
  rw [toNat_decayed, lessOne, BitVec.toNat_ofNat]
  omega

theorem State.decay_eq (s : State) : s.decay = { s with dt := lessOne s.dt, st := lessOne s.st } := by
  rw [← decayed_eq_lessOne, ← decayed_eq_lessOne]
  rfl

/-- R106. -/
theorem step_of_faulted {r : FaultRecord} (h : s.fault = some r) : step s = .fault r.fault := by
  rw [step_eq, h]

theorem step_of_fetch_error {f : Fault} (hs : s.fault = none) (hf : s.fetch = .error f) :
    step s = .next (s.takeFetchFault f) := by
  rw [step_eq, hs, hf]

/-- R90. -/
theorem step_of_miss {w : Word} {m : DecodeMiss} (hs : s.fault = none) (hw : s.fetch = .ok w)
    (hd : decodeWord w = .error m) : step s = .next (s.latch w).decay := by
  simp only [step_eq, hs, hw, hd]

theorem step_of_exec {w : Word} {i : Instr} (hs : s.fault = none) (hw : s.fetch = .ok w)
    (hd : decodeWord w = .ok i) (he : exec i (s.latch w) = .next t) : step s = s.finishCycle (.next t) := by
  simp only [step_eq, hs, hw, hd, he]

theorem State.finishCycle_of_unfaulted (h : t.fault = none) : s.finishCycle (.next t) = .next t.decay := by
  simp only [State.finishCycle, h]

theorem State.finishCycle_of_faulted {r : FaultRecord} (h : t.fault = some r) :
    s.finishCycle (.next t) = .next (s.abort r) := by
  simp only [State.finishCycle, h]

/-- A word that two bytes decode to, as a list, is the word of those bytes (R64). -/
theorem decode_pair {hi lo : Byte} {i : Instr} (h : decode [hi, lo] = .ok (i, [])) :
    decodeWord (Word.ofBytes hi lo) = .ok i := by
  cases hd : decodeWord (Word.ofBytes hi lo) <;> simp [decode, hd] at h
  rw [h]

/-- Settles O1: the two clauses are the two ways `finishCycle` ends the cycle. -/
theorem stepRunsDecodedInstruction : Obligations.StepRunsDecodedInstruction := by
  intro s i t hs hpc hd he
  have hstep := step_of_exec hs (s.fetch_of_lt hpc) (decode_pair hd) (by rw [State.latch_eq, he])
  exact ⟨fun ht => by rw [hstep, State.finishCycle_of_unfaulted ht, State.decay_eq],
    fun r hr => by rw [hstep, State.finishCycle_of_faulted hr]; rfl⟩

/-- Settles O3: the fetch names the first of its two addresses past memory. -/
theorem fetchPastMemoryIsTakenAsFault : Obligations.FetchPastMemoryIsTakenAsFault := by
  intro s hs hpc
  have haddr : max s.pc.toNat 4096 = if s.pc.toNat = 4095 then 4096 else s.pc.toNat := by split <;> omega
  have hf : s.fetch = .error (.memoryOutOfBounds .fetch (max s.pc.toNat 4096)) := by
    rw [s.fetch_eq, if_neg (by omega)]
  rw [step_of_fetch_error hs hf, haddr]
  rfl

/-- Settles O4. -/
theorem decodeMissOnlyAdvances : Obligations.DecodeMissOnlyAdvances := by
  intro s w m hs hw hd
  rw [step_of_miss hs hw hd, State.decay_eq, State.latch_eq]

/-- Settles O5: a fetch fault is taken, a miss is passed over, and no instruction faults or refuses as an outcome. -/
theorem everyUnfaultedCycleCompletes : Obligations.EveryUnfaultedCycleCompletes := by
  intro s hs
  cases hw : s.fetch with
  | error f => exact ⟨_, step_of_fetch_error hs hw⟩
  | ok w =>
    cases hd : decodeWord w with
    | error m => exact ⟨_, step_of_miss hs hw hd⟩
    | ok i =>
      obtain ⟨t, ht⟩ := exists_exec_next i (s.latch w)
      rw [step_of_exec hs hw hd ht]
      cases hf : t.fault with
      | none => exact ⟨_, State.finishCycle_of_unfaulted hf⟩
      | some r => exact ⟨_, State.finishCycle_of_faulted hf⟩

/-! ### A cycle that faults -/

theorem State.fetch_error_iff : (∃ f, s.fetch = .error f) ↔ 4096 ≤ s.pc.toNat + 1 := by
  rw [s.fetch_eq]
  split
  next h => simp; omega
  next h => simp; omega

theorem word_add_two_sub_two (p : Word) : p + 2 - 2 = p := BitVec.add_sub_cancel p 2

/-- A cycle that faults keeps the state from before it, with a record that names pc, and either the fetch raised the fault
or the instruction of the fetched opcode, which can raise it there (R105, R201). -/
theorem step_faulted {r : FaultRecord} (h : step s = .next t) (hr : t.fault = some r) :
    t = s.abort r ∧ r.fpc = s.pc ∧
      ((r.fop = none ∧ s.fetch = .error r.fault) ∨
        ∃ w i, r.fop = some w ∧ s.fetch = .ok w ∧ decodeWord w = .ok i ∧ CanRaise i s r.fault) := by
  obtain ⟨hs, ⟨f, hf, rfl⟩ | ⟨w, hw, ⟨m, -, rfl⟩ | ⟨i, u, hd, he, ⟨q, hu, rfl⟩ | ⟨hu, rfl⟩⟩⟩⟩ := step_cases h
  · cases hr
    exact ⟨rfl, rfl, .inl ⟨rfl, hf⟩⟩
  · simp [hs] at hr
  · obtain rfl : q = r := Option.some.inj hr
    obtain ⟨hcan, rfl⟩ := exec_faulted (by simpa using hs) he hu
    have hq : q = ⟨q.fault, (s.latch w).pc - 2, some w⟩ := (Option.some.inj hu).symm
    refine ⟨rfl, ?_, .inr ⟨w, i, by rw [hq], hw, hd, canRaise_congr rfl rfl rfl rfl hcan⟩⟩
    rw [hq, State.latch_eq]
    exact word_add_two_sub_two s.pc
  · simp [hu] at hr

/-- Settles O8. -/
theorem faultingCycleCommitsNothing : Obligations.FaultingCycleCommitsNothing := by
  intro s t r h hr
  obtain ⟨ht, hpc, ⟨hop, hf⟩ | ⟨w, i, hop, hw, -, -⟩⟩ := step_faulted h hr
  · exact ⟨ht, hpc, by simp [hop, ← State.fetch_error_iff, hf], by simp [hop, hf]⟩
  · exact ⟨ht, hpc, by simp [hop, ← State.fetch_error_iff, hw], by simp [hop, hw]⟩

/-! ### `cycle()` as the host sees it -/

theorem State.cycle_of_faulted {r : FaultRecord} (h : s.fault = some r) : s.cycle = (s, .fault r.fault) := by
  simp only [State.cycle, step_of_faulted h]

theorem State.cycle_of_step (h : step s = .next t) :
    s.cycle = (t, t.fault.elim .ok fun r => .fault r.fault) := by
  cases ht : t.fault <;> simp [State.cycle, h, ht]

/-- Settles O6. -/
theorem faultedMachineDoesNothing : Obligations.FaultedMachineDoesNothing := fun _ _ h =>
  ⟨step_of_faulted h, State.cycle_of_faulted h⟩

/-- What `cycle()` returns is read off the fault status after it, on a machine that was faulted too (R46, R106). -/
theorem State.cycle_result (s : State) : s.cycle.2 = s.cycle.1.fault.elim .ok fun r => .fault r.fault := by
  cases hs : s.fault with
  | some r => rw [State.cycle_of_faulted hs, hs]; rfl
  | none =>
    obtain ⟨t, ht⟩ := everyUnfaultedCycleCompletes s hs
    rw [State.cycle_of_step ht]

/-- Settles O57. -/
theorem cycleReturnsRecordedFault : Obligations.CycleReturnsRecordedFault := by
  intro s
  rw [s.cycle_result]
  cases s.cycle.1.fault <;> simp

end Sys2Proof.Machine
end

section
/-! The invariant of the machine (R24, R26, R60, R201): it holds at reset, and every step and every transaction of the host
keeps it. -/
namespace Sys2Proof.Machine

variable {i : Instr} {s t : State}

/-! ### What an instruction keeps of the bounds -/

/-- The registers that Fx55 stores leave memory canonical where it completes: there are none, or they end inside memory. -/
theorem State.wf_writeList_firstRegs {x : Reg} (hm : s.mem.wf = true) (hI : x.val = 0 ∨ s.I.toNat + x.val ≤ 4096) :
    (s.mem.writeList s.I.toNat (s.firstRegs x.val)).wf = true := by
  have hx : x.val ≤ 16 := by omega
  obtain h0 | hle := hI
  · rw [(s.firstRegs_eq_nil hx).2 h0]
    exact hm
  · exact Memory.wf_writeList hm (by rwa [s.length_firstRegs hx])

/-- Only LD B and LD [I], Vx write memory, and both keep its canonical form (R163, R164). -/
theorem exec_keeps_mem_wf (h : exec i s = .next t) (hm : s.mem.wf = true) : t.mem.wf = true := by
  cases i
  case ldBcd x =>
    obtain ⟨hI, rfl⟩ | ⟨-, rfl⟩ := execLdBcd_cases h
    · exact Memory.wf_writeList hm (by simp [bcdDigits]; omega)
    · exact hm
  case storeRegs x =>
    obtain ⟨hI, rfl⟩ | ⟨-, -, rfl⟩ := execStoreRegs_cases h
    · exact State.wf_writeList_firstRegs hm hI
    · exact hm
  all_goals
    obtain hc | ⟨f, -, rfl⟩ := exec_cases h
    · rw [hc.mem (by simp) (by simp)]
      exact hm
    · exact hm

/-- Every entry of the stack is a return address inside memory or just past it (R26). -/
def State.StackBound (s : State) : Prop := ∀ k : Fin 16, (s.stack[k]).toNat ≤ 0x1000

/-- CALL pushes pc, and no other instruction writes an entry (R132, R26). -/
theorem exec_keeps_stackBound (h : exec i s = .next t) (hpc : s.pc.toNat ≤ 0x1000) (hst : s.StackBound) :
    t.StackBound := by
  cases i
  case call nnn =>
    obtain ⟨-, rfl⟩ | ⟨hsp, rfl⟩ := execCall_cases h
    · exact hst
    · intro k
      by_cases hk : s.sp.val = k.val
      · simpa [hk] using hpc
      · simpa [Vector.getElem_set_ne, hk] using hst k
  case ret => obtain ⟨-, rfl⟩ | ⟨-, rfl⟩ := execRet_cases h <;> exact hst
  all_goals
    obtain hc | ⟨f, -, rfl⟩ := exec_cases h
    · intro k
      rw [hc.stack (by simp) (by simp)]
      exact hst k
    · exact hst

/-- 0x10FE is the target of JP V0 with V0 = 0xFF and nnn = 0xFFF; no other instruction takes pc so far (R24, R137). -/
theorem exec_pc_le (h : exec i s = .next t) (hwf : i.wf = true) (hpc : 2 ≤ s.pc.toNat ∧ s.pc.toNat ≤ 0x1000)
    (hst : s.StackBound) : t.pc.toNat ≤ 0x10FE := by
  have hback : (s.pc - 2).toNat ≤ 0x10FE := by bv_omega
  have hkeep : s.pc.toNat ≤ 0x10FE := by omega
  have hskip (c : Bool) : (s.skipIf c).pc.toNat ≤ 0x10FE := by
    rw [State.skipIf_eq]
    cases c <;> simp <;> omega
  cases i
  case ret =>
    obtain ⟨-, rfl⟩ | ⟨hsp, rfl⟩ := execRet_cases h
    · exact hback
    · exact Nat.le_trans (hst ⟨s.sp.val - 1, by omega⟩) (by decide)
  case call nnn =>
    have hnnn : nnn < 4096 := of_decide_eq_true hwf
    obtain ⟨-, rfl⟩ | ⟨-, rfl⟩ := execCall_cases h
    · exact hback
    · simp; omega
  case jp nnn =>
    have hnnn : nnn < 4096 := of_decide_eq_true hwf
    cases h
    simp; omega
  case jpV0 nnn =>
    have hnnn : nnn < 4096 := of_decide_eq_true hwf
    have hv := (s.v 0).isLt
    cases h
    simp; omega
  case seImm | sneImm | seReg | sneReg =>
    cases h
    exact hskip _
  case skp x =>
    obtain ⟨-, rfl⟩ | ⟨-, rfl⟩ := execSkp_cases h
    · exact hskip _
    · exact hback
  case sknp x =>
    obtain ⟨-, rfl⟩ | ⟨-, rfl⟩ := execSknp_cases h
    · exact hskip _
    · exact hback
  case ldVxKey x =>
    obtain ⟨k, -, rfl⟩ | ⟨-, rfl⟩ := execLdVxKey_cases h
    · exact hkeep
    · exact hback
  all_goals
    obtain hc | ⟨f, -, rfl⟩ := exec_cases h
    · rw [hc.pc rfl]
      exact hkeep
    · exact hback

/-! ### Steps -/

/-- After a fetch that does not fault pc is between 2 and 0x1000 (R101, R102). -/
theorem State.latch_pc_bounds {w w' : Word} (h : s.fetch = .ok w) :
    2 ≤ (s.latch w').pc.toNat ∧ (s.latch w').pc.toNat ≤ 0x1000 := by
  have hpc : s.pc.toNat < 4095 := by
    rw [s.fetch_eq] at h
    split at h
    · assumption
    · cases h
  simp
  omega

theorem step_keeps_inBounds (h : step s = .next t) (hs : s.InBounds) : t.InBounds := by
  obtain ⟨hmem, hpc, hst⟩ := hs
  obtain ⟨-, ⟨f, -, rfl⟩ | ⟨w, hw, ⟨m, -, rfl⟩ | ⟨i, u, hd, he, ⟨r, -, rfl⟩ | ⟨-, rfl⟩⟩⟩⟩ := step_cases h
  · exact ⟨hmem, hpc, hst⟩
  · obtain ⟨-, hle⟩ := State.latch_pc_bounds (w' := w) hw
    exact ⟨hmem, Nat.le_trans hle (by decide), hst⟩
  · exact ⟨hmem, hpc, hst⟩
  · have hpc' := State.latch_pc_bounds (w' := w) hw
    have hu : u.InBounds := ⟨exec_keeps_mem_wf he hmem, exec_pc_le he (decodeWord_sound hd).1 hpc' hst,
      exec_keeps_stackBound he hpc'.2 hst⟩
    exact hu

/-- The record of a step that faults is precise; an unfaulted state has none. -/
theorem step_faultPrecise (h : step s = .next t) : t.FaultPrecise := by
  intro r hr
  obtain ⟨rfl, hpc, ⟨hop, hf⟩ | ⟨w, i, hop, hw, hd, hcan⟩⟩ := step_faulted h hr
  · exact ⟨hpc, by rw [hop]; exact hf⟩
  · exact ⟨hpc, by rw [hop]; exact ⟨hw, i, hd, canRaise_congr rfl rfl rfl rfl hcan⟩⟩

/-- Settles O10: the bounds need the case analysis over the instructions; a fault status is precise whatever the state was. -/
theorem everyStepKeepsInvariant : Obligations.EveryStepKeepsInvariant := fun _ _ hs h =>
  ⟨step_keeps_inBounds h hs.1, step_faultPrecise h⟩

/-! ### The host's transactions -/

theorem State.reset_inBounds : State.reset.InBounds := ⟨rfl, by decide, by decide⟩

/-- Settles O11: at reset no fault is recorded. -/
theorem resetMeetsInvariant : Obligations.ResetMeetsInvariant := ⟨State.reset_inBounds, fun _ h => nomatch h⟩

theorem State.load_keeps_inBounds (hs : s.InBounds) (bytes : List Byte) : (s.load bytes).1.InBounds := by
  obtain ⟨hmem, hpc, hst⟩ := hs
  unfold State.load
  split
  next hlen => exact ⟨Memory.wf_writeList hmem (by simp at hlen ⊢; omega), hpc, hst⟩
  · exact ⟨hmem, hpc, hst⟩

theorem State.cycle_keeps_inBounds (hs : s.InBounds) : s.cycle.1.InBounds := by
  cases hf : s.fault with
  | some r => rw [State.cycle_of_faulted hf]; exact hs
  | none =>
    obtain ⟨t, ht⟩ := everyUnfaultedCycleCompletes s hf
    rw [State.cycle_of_step ht]
    exact step_keeps_inBounds ht hs

theorem State.perform_keeps_inBounds (hs : s.InBounds) (x : Transaction) : (s.perform x).InBounds := by
  cases x with
  | construct => exact State.reset_inBounds
  | load bytes => exact State.load_keeps_inBounds hs bytes
  | cycle => exact State.cycle_keeps_inBounds hs
  | writeKey k pressed => exact hs

/-- Settles O12, by induction on the transactions. -/
theorem transactionsKeepBounds : Obligations.TransactionsKeepBounds := by
  intro ts
  induction ts with
  | nil => exact fun s hs => hs
  | cons x xs ih => exact fun s hs => ih (s.perform x) (State.perform_keeps_inBounds hs x)

/-! ### The state after construct() (R39, R230) -/

/-- The reset contents are the 80 font bytes in place, and 0 elsewhere (R33, R39). -/
theorem resetByte_eq (a : Nat) : resetByte a = if 0x050 ≤ a ∧ a < 0x0A0 then fontTable.getD (a - 0x050) 0 else 0 := by
  unfold resetByte
  by_cases hlo : 0x050 ≤ a
  · by_cases hhi : a < 0x0A0
    · simp [hlo, hhi]
    · have hlen : fontTable.length ≤ a - 0x050 := by
        rw [show fontTable.length = 80 from rfl]
        omega
      simp [hlo, hhi, List.getD, List.getElem?_eq_none hlen]
  · simp [hlo]

/-- Settles O13: the state is the reset state but for the random source, and each field of that is a literal. -/
theorem constructSetsResetValues : Obligations.ConstructSetsResetValues := by
  intro s
  rw [s.construct_eq]
  refine ⟨?regs, rfl, rfl, rfl, ?stack, rfl, rfl, resetByte_eq, ?pixels, ?keys, rfl, rfl⟩
  case regs => intro r; simp [State.v, State.reset]
  case stack => intro k; simp [State.reset]
  case pixels => exact fun px py => State.reset.pixel_clearFb px py
  case keys => intro k; simp [State.reset]

end Sys2Proof.Machine
end

section
/-! What Dxyn draws (R121, R122, R123): a draw that completes XORs the cells its sprite covers and reports a collision, and
one that does not raises at the first place in program order (R203). -/
namespace Sys2Proof.Machine

open Sys2Proof.Claims

variable {s t u : State}

/-! ### Drawing a set of cells -/

/-- `t` is `s` with each covered cell toggled, and VF set to 1 if one of them was lit. -/
structure State.DrawsOver (s t : State) (covers : Nat → Nat → Bool) : Prop where
  pixel : ∀ px py, t.pixel px py = (s.pixel px py ^^ covers px py)
  hit : (∃ px py, covers px py = true ∧ s.pixel px py = true) → t.v 15 = 1
  noHit : (∀ px py, covers px py = true → s.pixel px py = false) → t.v 15 = s.v 15

namespace State.DrawsOver

variable {c d : Nat → Nat → Bool}

theorem refl (s : State) : s.DrawsOver s fun _ _ => false where
  pixel := by simp
  hit := by simp
  noHit := by simp

/-- Two draws over disjoint cells are one draw over both. -/
theorem trans (h : s.DrawsOver t c) (k : t.DrawsOver u d) (hdisj : ∀ px py, c px py = true → d px py = false) :
    s.DrawsOver u fun px py => c px py || d px py where
  pixel px py := by
    rw [k.pixel, h.pixel]
    cases hc : c px py
    · simp
    · simp [hdisj px py hc]
  hit := by
    rintro ⟨px, py, hcov, hlit⟩
    have keep (hd : ∀ qx qy, d qx qy = true → t.pixel qx qy = false) (hc : t.v 15 = 1) : u.v 15 = 1 :=
      (k.noHit hd).trans hc
    by_cases hd : ∃ qx qy, d qx qy = true ∧ t.pixel qx qy = true
    · exact k.hit hd
    · simp only [not_exists, not_and, Bool.not_eq_true] at hd
      cases hc : c px py with
      | true => exact keep hd (h.hit ⟨px, py, hc, hlit⟩)
      | false =>
        have hdp : d px py = true := by simpa [hc] using hcov
        have := hd px py hdp
        simp [h.pixel, hc, hlit] at this
  noHit := by
    intro hnone
    have hc : ∀ px py, c px py = true → s.pixel px py = false := fun px py hc => hnone px py (by simp [hc])
    have hd : ∀ px py, d px py = true → t.pixel px py = false := by
      intro px py hd
      have hcf : c px py = false := by
        cases hc : c px py
        · rfl
        · simp [hdisj px py hc] at hd
      rw [h.pixel, hcf, hnone px py (by simp [hd])]
      rfl
    rw [k.noHit hd, h.noHit hc]

theorem congr (h : s.DrawsOver t c) (hcd : ∀ px py, c px py = d px py) : s.DrawsOver t d := by
  have : c = d := funext fun px => funext fun py => hcd px py
  rwa [← this]

end State.DrawsOver

/-- One set bit on the grid (R121). -/
theorem State.toggle_drawsOver {px py : Nat} (hx : px < 64) (hy : py < 32) :
    s.DrawsOver (s.toggle px py) fun qx qy => decide (qx = px ∧ qy = py) where
  pixel qx qy := s.pixel_toggle px py qx qy hx hy
  hit := by
    rintro ⟨qx, qy, hcov, hlit⟩
    obtain ⟨rfl, rfl⟩ := of_decide_eq_true hcov
    simp [State.v_toggle, hlit]
  noHit hnone := by
    have hdark : s.pixel px py = false := hnone px py (by simp)
    simp [State.v_toggle, hdark]

/-! ### Rows and sprites -/

/-- The cells that the set bits of the first `cols` columns of a row land on. -/
def rowCovers (b : Byte) (px0 row cols px py : Nat) : Bool :=
  decide (py = row ∧ px0 ≤ px ∧ px < px0 + cols) && spriteBit b (px - px0)

/-- The cells that the set bits of the first `rows` rows of a sprite in memory land on. -/
def rowsCover (m : Memory) (base px0 py0 rows px py : Nat) : Bool :=
  decide (px0 ≤ px ∧ px < px0 + 8 ∧ py0 ≤ py ∧ py < py0 + rows) && spriteBit (m.read (base + (py - py0))) (px - px0)

theorem State.drawCols_drawsOver {b : Byte} {px0 py cols : Nat} (h : s.drawCols drawEdge b px0 py cols = .ok t) :
    s.DrawsOver t (rowCovers b px0 py cols) := by
  induction cols generalizing t with
  | zero =>
    cases h
    exact (State.DrawsOver.refl s).congr fun qx qy => by simp [rowCovers]
  | succ col ih =>
    obtain ⟨u, hu, h⟩ := except_bind_eq_ok.1 h
    have hlast : u.DrawsOver t fun qx qy => decide (qx = px0 + col ∧ qy = py) && spriteBit b col := by
      split at h
      next hb =>
        rw [State.plot_eq] at h
        split at h
        next hin =>
          cases h
          exact (State.toggle_drawsOver hin.1 hin.2).congr fun qx qy => by simp [hb]
        · cases h
      next hb =>
        cases h
        exact (State.DrawsOver.refl t).congr fun qx qy => by simp [hb]
    refine ((ih hu).trans hlast fun qx qy hc => ?_).congr fun qx qy => ?_
    · simp [rowCovers] at hc ⊢
      omega
    · by_cases hq : qx = px0 + col
      · simp [rowCovers, hq]
      · have hlt : qx < px0 + (col + 1) ↔ qx < px0 + col := by omega
        simp [rowCovers, hq, hlt]

theorem State.drawRows_drawsOver {base px0 py0 rows : Nat} (h : s.drawRows drawEdge base px0 py0 rows = .ok t) :
    s.DrawsOver t (rowsCover s.mem base px0 py0 rows) := by
  induction rows generalizing t with
  | zero =>
    cases h
    exact (State.DrawsOver.refl s).congr fun qx qy => by simp [rowsCover]
  | succ row ih =>
    obtain ⟨u, hu, h⟩ := except_bind_eq_ok.1 h
    obtain ⟨b, hb, h⟩ := except_bind_eq_ok.1 h
    have hmem : u.mem = s.mem := by rw [(drawRows_frame hu).1]
    have hb : b = s.mem.read (base + row) := by
      rw [State.memRead_eq, hmem] at hb
      split at hb
      · cases hb; rfl
      · cases hb
    refine ((ih hu).trans (State.drawCols_drawsOver h) fun qx qy hc => ?_).congr fun qx qy => ?_
    · simp [rowsCover, rowCovers] at hc ⊢
      omega
    · by_cases hq : qy = py0 + row
      · simp [rowsCover, rowCovers, hq, hb]
      · have hlt : qy < py0 + (row + 1) ↔ qy < py0 + row := by omega
        simp [rowsCover, rowCovers, hq, hlt]

/-! ### Dxyn -/

theorem exec_drw (x y : Reg) (n : Nat) (s : State) : exec (.drw x y n) s =
    s.finish ((s.setFlag 0).drawRows drawEdge s.I.toNat ((s.v x).toNat % 64) ((s.v y).toNat % 32) n) := rfl

/-- The cells that the sprite's rows cover, from the anchor of Dxyn, are those of `spriteCovers`. -/
theorem rowsCover_eq_spriteCovers (s : State) (x y : Reg) (n px py : Nat) :
    rowsCover s.mem s.I.toNat ((s.v x).toNat % 64) ((s.v y).toNat % 32) n px py = spriteCovers s x y n px py := rfl

/-- A Dxyn that completes changes VF and the framebuffer alone: each cell is XORed with the sprite bit that lands on it, and
VF reports whether one landed on a lit cell (R121). -/
structure DrawsSprite (s : State) (x y : Reg) (n : Nat) (t : State) : Prop where
  frame : s.DrawFrame t
  pixel : ∀ px py, t.pixel px py = (s.pixel px py ^^ spriteCovers s x y n px py)
  hit : (∃ px py, spriteCovers s x y n px py = true ∧ s.pixel px py = true) → t.v 15 = 1
  noHit : (∀ px py, spriteCovers s x y n px py = true → s.pixel px py = false) → t.v 15 = 0

variable {x y : Reg} {n : Nat}

theorem drawsSprite_of_drawRows
    (h : (s.setFlag 0).drawRows drawEdge s.I.toNat ((s.v x).toNat % 64) ((s.v y).toNat % 32) n = .ok t) :
    DrawsSprite s x y n t := by
  have hdraw := (State.drawRows_drawsOver h).congr (rowsCover_eq_spriteCovers s x y n)
  have hflag : s.DrawFrame (s.setFlag 0) := ⟨rfl, fun r hr => by simp [hr]⟩
  exact ⟨hflag.trans (State.drawRows_frame h), hdraw.pixel, hdraw.hit,
    fun hnone => (hdraw.noHit hnone).trans (by simp)⟩

/-- A Dxyn that leaves no fault recorded has drawn its sprite. -/
theorem drawsSprite_of_exec (h : exec (.drw x y n) s = .next t) (ht : t.fault = none) : DrawsSprite s x y n t := by
  rw [exec_drw] at h
  obtain hok | ⟨f, -, rfl⟩ := State.finish_eq_next.1 h
  · exact drawsSprite_of_drawRows hok
  · simp at ht

/-- A sprite that fits raises nothing (R121, R122). -/
theorem exec_drw_of_fits (hfit : SpriteFits s x y n) : ∃ t, exec (.drw x y n) s = .next t ∧ DrawsSprite s x y n t := by
  rw [exec_drw]
  cases hr : (s.setFlag 0).drawRows drawEdge s.I.toNat ((s.v x).toNat % 64) ((s.v y).toNat % 32) n with
  | ok t => exact ⟨t, rfl, drawsSprite_of_drawRows hr⟩
  | error f =>
    exfalso
    obtain ⟨hmem, -⟩ | ⟨row, col, hrow, hcol, -, hbit, hout, -⟩ := State.drawRows_error hr
    · have hlast := (hfit (n - 1) (by omega)).1
      omega
    · have hin := (hfit row hrow).2 col hcol hbit
      omega

/-- A cell that is lit is on the grid. -/
theorem State.lt_of_pixel {px py : Nat} (h : s.pixel px py = true) : px < 64 ∧ py < 32 := by
  unfold State.pixel at h
  refine ⟨BitVec.lt_of_getLsbD h, ?_⟩
  by_contra hpy
  simp [Vector.getD, hpy] at h

/-- Settles O23: a collision is at a lit cell, which is on the grid. -/
theorem drwXorsSpriteAndFlagsCollision : Obligations.DrwXorsSpriteAndFlagsCollision := by
  intro s x y n hfit
  obtain ⟨t, ht, hd⟩ := exec_drw_of_fits hfit
  refine ⟨t, ht, fun px py _ _ => hd.pixel px py, ?hit, ?noHit, hd.frame.2, hd.frame.1⟩
  case hit =>
    rintro ⟨px, py, -, -, hcov, hlit⟩
    exact hd.hit ⟨px, py, hcov, hlit⟩
  case noHit =>
    refine fun hnone => hd.noHit fun px py hcov => ?_
    by_contra hlit
    obtain ⟨hx, hy⟩ := State.lt_of_pixel (Bool.eq_true_of_not_eq_false hlit)
    exact hlit (hnone px py hx hy hcov)

/-- VF after a completed Dxyn is 0 or 1 (R153). -/
theorem DrawsSprite.flag (h : DrawsSprite s x y n t) : t.v 15 = 0 ∨ t.v 15 = 1 := by
  by_cases hhit : ∃ px py, spriteCovers s x y n px py = true ∧ s.pixel px py = true
  · exact .inr (h.hit hhit)
  · simp only [not_exists, not_and, Bool.not_eq_true] at hhit
    exact .inl (h.noHit hhit)

theorem DrawsSprite.flag_eq_one_iff (h : DrawsSprite s x y n t) :
    t.v 15 = 1 ↔ ∃ px py, spriteCovers s x y n px py = true ∧ s.pixel px py = true := by
  refine ⟨fun hone => ?_, h.hit⟩
  by_contra hhit
  simp only [not_exists, not_and, Bool.not_eq_true] at hhit
  rw [h.noHit hhit] at hone
  exact absurd hone (by decide)

/-- A sprite drawn over registers other than VF covers the same cells in the state it leaves. -/
theorem DrawsSprite.spriteCovers_eq (h : DrawsSprite s x y n t) (hx : x ≠ 15) (hy : y ≠ 15) (px py : Nat) :
    spriteCovers t x y n px py = spriteCovers s x y n px py := by
  obtain ⟨hframe, hreg⟩ := h.frame
  have hmem : t.mem = s.mem := by rw [hframe]
  have hI : t.I = s.I := by rw [hframe]
  simp only [spriteCovers, spriteBitAt, hreg x hx, hreg y hy, hmem, hI]

/-- Settles O25: the second draw XORs the same cells, and collides where the first turned a dark cell lit. -/
theorem drawTwiceRestoresFramebuffer : Obligations.DrawTwiceRestoresFramebuffer := by
  intro s t u x y n hx hy hst ht htu hu
  have h1 := drawsSprite_of_exec hst ht
  have h2 := drawsSprite_of_exec htu hu
  have hcov := h1.spriteCovers_eq hx hy
  have hlit (px py : Nat) : (spriteCovers t x y n px py = true ∧ t.pixel px py = true) ↔
      (s.pixel px py = false ∧ t.pixel px py = true) := by
    rw [hcov, h1.pixel]
    cases s.pixel px py <;> cases spriteCovers s x y n px py <;> decide
  refine ⟨fun px py _ _ => ?_, ?_⟩
  · rw [h2.pixel, h1.pixel, hcov, Bool.xor_assoc, Bool.xor_self, Bool.xor_false]
  · rw [h2.flag_eq_one_iff]
    constructor
    · rintro ⟨px, py, hc⟩
      obtain ⟨hpx, hpy⟩ := State.lt_of_pixel hc.2
      exact ⟨px, py, hpx, hpy, (hlit px py).1 hc⟩
    · rintro ⟨px, py, -, -, hc⟩
      exact ⟨px, py, (hlit px py).2 hc⟩

/-! ### The first raise in program order (R203) -/

/-- What a column of a row raises, if anything: a set bit outside the grid (R122). -/
def colFault (b : Byte) (px0 py col : Nat) : Option Fault :=
  if spriteBit b col = true ∧ (64 ≤ px0 + col ∨ 32 ≤ py) then some (.framebufferOutOfBounds (px0 + col) py) else none

/-- The last element tried decides only if none before it does. -/
theorem findSome?_range_succ {α : Type} (g : Nat → Option α) (k : Nat) :
    (List.range (k + 1)).findSome? g = ((List.range k).findSome? g).or (g k) := by
  simp [List.range_succ, List.findSome?_append]

/-- What a row raises, if anything: its read first, then its columns. -/
def rowFault (m : Memory) (base px0 py0 row : Nat) : Option Fault :=
  if 4096 ≤ base + row then some (.memoryOutOfBounds .read (base + row))
  else (List.range 8).findSome? (colFault (m.read (base + row)) px0 (py0 + row))

/-- The fault that a computation raises, if any. -/
def raisedBy {α : Type} : Except Fault α → Option Fault
  | .ok _ => none
  | .error f => some f

theorem raisedBy_eq_some {α : Type} {r : Except Fault α} {f : Fault} : raisedBy r = some f ↔ r = .error f := by
  cases r <;> simp [raisedBy]

theorem State.raisedBy_drawCols (s : State) (b : Byte) (px0 py cols : Nat) :
    raisedBy (s.drawCols drawEdge b px0 py cols) = (List.range cols).findSome? (colFault b px0 py) := by
  induction cols with
  | zero => rfl
  | succ col ih =>
    rw [findSome?_range_succ, ← ih, State.drawCols]
    cases s.drawCols drawEdge b px0 py col with
    | error f => rfl
    | ok t =>
      by_cases hb : spriteBit b col = true
      · by_cases hin : px0 + col < 64 ∧ py < 32
        · simp [raisedBy, State.plot_eq, colFault, hb, hin]
        · have hout : 64 ≤ px0 + col ∨ 32 ≤ py := by omega
          simp [raisedBy, State.plot_eq, colFault, hb, hin, hout]
      · simp [raisedBy, colFault, hb]

theorem State.raisedBy_drawRows (s : State) (base px0 py0 rows : Nat) :
    raisedBy (s.drawRows drawEdge base px0 py0 rows) = (List.range rows).findSome? (rowFault s.mem base px0 py0) := by
  induction rows with
  | zero => rfl
  | succ row ih =>
    rw [findSome?_range_succ, ← ih, State.drawRows]
    cases ht : s.drawRows drawEdge base px0 py0 row with
    | error f => rfl
    | ok t =>
      have hmem : t.mem = s.mem := by rw [(drawRows_frame ht).1]
      by_cases hin : base + row < 4096
      · simp [raisedBy, rowFault, State.memRead_eq, hmem, hin, ← State.raisedBy_drawCols t]
      · simp [raisedBy, rowFault, State.memRead_eq, hin, show 4096 ≤ base + row by omega]

/-- Settles O24. -/
theorem drwTakesFirstRaise : Obligations.DrwTakesFirstRaise := by
  intro s x y n f hf
  have hrows : (s.setFlag 0).drawRows drawEdge s.I.toNat ((s.v x).toNat % 64) ((s.v y).toNat % 32) n = .error f :=
    raisedBy_eq_some.1 ((State.raisedBy_drawRows _ _ _ _ _).trans hf)
  exact raises_of_takeFault (by rw [exec_drw, hrows]; rfl)

end Sys2Proof.Machine
end

section
/-! The arithmetic instructions that write VF (R146 to R150, R153), Cxkk (R151, R152) and Fx1E (R161). The flag is written
first, and what follows reads it (R12). -/
namespace Sys2Proof.Machine

open Sys2Proof.Claims

variable {i : Instr} {s : State} {x y : Reg} {b f : Byte}

/-! ### What each of them answers -/

/-- R146. -/
theorem exec_addReg (x y : Reg) (s : State) : exec (.addReg x y) s =
    .next ((s.setFlag (flagByte (carry (s.v x) (s.v y)))).setV x (BitVec.ofNat 8 (wideSum (s.v x) (s.v y)))) := rfl

/-- R147: the difference reads the registers after the flag is written. -/
theorem exec_subReg (x y : Reg) (s : State) : exec (.subReg x y) s =
    .next ((s.setFlag (flagByte (notBorrow (s.v x) (s.v y)))).setV x
      ((s.setFlag (flagByte (notBorrow (s.v x) (s.v y)))).v x -
        (s.setFlag (flagByte (notBorrow (s.v x) (s.v y)))).v y)) := rfl

/-- R149: the difference reads the registers after the flag is written. -/
theorem exec_subnReg (x y : Reg) (s : State) : exec (.subnReg x y) s =
    .next ((s.setFlag (flagByte (notBorrow (s.v y) (s.v x)))).setV x
      ((s.setFlag (flagByte (notBorrow (s.v y) (s.v x)))).v y -
        (s.setFlag (flagByte (notBorrow (s.v y) (s.v x)))).v x)) := rfl

/-- R148. -/
theorem exec_shr (x : Reg) (s : State) : exec (.shr x) s =
    .next ((s.setFlag (lowBit (s.v x))).setV x ((s.setFlag (lowBit (s.v x))).v x >>> 1)) := rfl

/-- R150. -/
theorem exec_shl (x : Reg) (s : State) : exec (.shl x) s =
    .next ((s.setFlag (highBit (s.v x))).setV x ((s.setFlag (highBit (s.v x))).v x <<< 1)) := rfl

/-- R151, R152. -/
theorem exec_rnd (x : Reg) (kk : Nat) (s : State) : exec (.rnd x kk) s =
    .next (({ s with draws := s.draws + 1 } : State).setV x (Config.freeDraw s.source s.draws &&& immByte kk)) := rfl

/-- R161. -/
theorem exec_addI (x : Reg) (s : State) : exec (.addI x) s = .next (s.setI (s.I.toNat + (s.v x).toNat)) := rfl

/-! ### A flag, then a register -/

/-- The register write comes last, so that on VF itself it is the value that stays (D2). -/
theorem setsRegAndFlag_of_exec (h : exec i s = .next ((s.setFlag f).setV x b)) : SetsRegAndFlag i s x b f := by
  refine ⟨_, h, State.v_setV_same _ x b, fun hx => ?_, fun r hr h15 => ?_, rfl⟩
  · rw [State.v_setV_ne _ x 15 b hx.symm, State.v_setFlag, if_pos rfl]
  · rw [State.v_setV_ne _ x r b hr, State.v_setFlag, if_neg h15]

/-- On VF the register write is all that is left. -/
theorem setsReg_vf_of_exec {c : Byte} (h : exec i s = .next ((s.setFlag f).setV 15 c)) (hc : c = b) :
    SetsReg i s 15 b := by
  subst hc
  refine ⟨_, h, State.v_setV_same _ 15 c, fun r hr => ?_, rfl⟩
  rw [State.v_setV_ne _ 15 r c hr, State.v_setFlag, if_neg hr]

theorem flagByte_carry (a b : Byte) : flagByte (carry a b) = if a.toNat + b.toNat > 255 then 1 else 0 := by
  simp [flagByte, carry, wideSum]

theorem flagByte_notBorrow (a b : Byte) : flagByte (notBorrow a b) = if a.toNat > b.toNat then 1 else 0 := by
  simp [flagByte, notBorrow]

/-- Settles O32: the sum is taken before the flag is written. -/
theorem addSetsSumAndCarry : Obligations.AddSetsSumAndCarry := by
  intro s x y
  refine ⟨BitVec.ofNat 8 (wideSum (s.v x) (s.v y)), BitVec.toNat_ofNat _ _, ?_⟩
  rw [← flagByte_carry]
  exact setsRegAndFlag_of_exec (exec_addReg x y s)

theorem toNat_sub_byte (a b : Byte) : (a - b).toNat = (a.toNat + 256 - b.toNat) % 256 := by
  have hb := b.isLt
  rw [BitVec.toNat_sub]
  omega

/-- Settles O33: neither operand is VF, so that the difference reads them as they were. -/
theorem subtractionsSetDifferenceAndNotBorrow : Obligations.SubtractionsSetDifferenceAndNotBorrow := by
  intro s x y hx hy
  refine ⟨⟨s.v x - s.v y, toNat_sub_byte _ _, ?sub⟩, ⟨s.v y - s.v x, toNat_sub_byte _ _, ?subn⟩⟩
  case sub =>
    rw [← flagByte_notBorrow]
    exact setsRegAndFlag_of_exec (by simp [exec_subReg, hx, hy])
  case subn =>
    rw [← flagByte_notBorrow]
    exact setsRegAndFlag_of_exec (by simp [exec_subnReg, hx, hy])

/-- Settles O34: in the operand that is VF the difference reads the flag just written. -/
theorem subtractionsOnVfReadTheFlag : Obligations.SubtractionsOnVfReadTheFlag := by
  intro s r hr
  simp only [← flagByte_notBorrow]
  refine ⟨?subVf, ?subnVf, ?subByVf, ?subnByVf, ?subBoth, ?subnBoth⟩
  case subVf => exact setsReg_vf_of_exec (exec_subReg 15 r s) (by simp [hr])
  case subnVf => exact setsReg_vf_of_exec (exec_subnReg 15 r s) (by simp [hr])
  case subByVf => exact setsRegAndFlag_of_exec (by simp [exec_subReg, hr])
  case subnByVf => exact setsRegAndFlag_of_exec (by simp [exec_subnReg, hr])
  case subBoth => exact setsReg_vf_of_exec (exec_subReg 15 15 s) (by simp)
  case subnBoth => exact setsReg_vf_of_exec (exec_subnReg 15 15 s) (by simp)

theorem toNat_lowBit (a : Byte) : (lowBit a).toNat = a.toNat % 2 := by
  simp [lowBit, Nat.and_one_is_mod]

theorem toNat_highBit (a : Byte) : (highBit a).toNat = a.toNat / 128 := by
  simp [highBit, Nat.shiftRight_eq_div_pow]

theorem lowBit_shr (a : Byte) : lowBit a >>> 1 = 0 := by
  apply BitVec.eq_of_toNat_eq
  simp [toNat_lowBit, Nat.shiftRight_eq_div_pow]

theorem highBit_shl (a : Byte) : highBit a <<< 1 = if a.toNat ≥ 128 then 2 else 0 := by
  have ha := a.isLt
  apply BitVec.eq_of_toNat_eq
  rw [BitVec.toNat_shiftLeft, toNat_highBit, Nat.shiftLeft_eq]
  split <;> simp <;> omega

/-- Settles O35: on another register the shift reads it as it was, on VF it shifts the flag just written. -/
theorem shiftsSetResultAndShiftedOutBit : Obligations.ShiftsSetResultAndShiftedOutBit := by
  refine ⟨fun s x hx => ⟨⟨s.v x >>> 1, lowBit (s.v x), ?shrValue, toNat_lowBit _, ?shr⟩,
    ⟨s.v x <<< 1, highBit (s.v x), ?shlValue, toNat_highBit _, ?shl⟩⟩, fun s => ⟨?shrVf, ?shlVf⟩⟩
  case shrValue => simp [Nat.shiftRight_eq_div_pow]
  case shlValue => simp [Nat.shiftLeft_eq]
  case shr => exact setsRegAndFlag_of_exec (by simp [exec_shr, hx])
  case shl => exact setsRegAndFlag_of_exec (by simp [exec_shl, hx])
  case shrVf => exact setsReg_vf_of_exec (exec_shr 15 s) (by simp [lowBit_shr])
  case shlVf => exact setsReg_vf_of_exec (exec_shl 15 s) (by simp [highBit_shl])

/-- Settles O36. -/
theorem rndMasksOneDraw : Obligations.RndMasksOneDraw := by
  intro s x kk hkk
  refine ⟨_, exec_rnd x kk s, State.v_setV_same _ x _, fun k hk => ?_, rfl, fun r hr => State.v_setV_ne _ x r _ hr, rfl⟩
  rw [State.v_setV_same, BitVec.getLsbD_and, immByte, BitVec.getLsbD_ofNat, hk, Bool.and_false, Bool.and_false]

/-- Settles O39. -/
theorem addIndexWraps : Obligations.AddIndexWraps := fun s x =>
  ⟨_, exec_addI x s, BitVec.toNat_ofNat _ _, s.setI_frame _⟩

/-! ### VF after a flag (R153) -/

theorem flagByte_eq (c : Bool) : flagByte c = 0 ∨ flagByte c = 1 := by cases c <;> simp [flagByte]

theorem lowBit_eq (a : Byte) : lowBit a = 0 ∨ lowBit a = 1 := by
  have h := toNat_lowBit a
  have : (lowBit a).toNat = 0 ∨ (lowBit a).toNat = 1 := by omega
  exact this.imp BitVec.eq_of_toNat_eq BitVec.eq_of_toNat_eq

theorem highBit_eq (a : Byte) : highBit a = 0 ∨ highBit a = 1 := by
  have h := toNat_highBit a
  have ha := a.isLt
  have : (highBit a).toNat = 0 ∨ (highBit a).toNat = 1 := by omega
  exact this.imp BitVec.eq_of_toNat_eq BitVec.eq_of_toNat_eq

/-- Where a register other than VF is written after the flag, VF is the flag. -/
theorem v15_of_exec {t : State} (hx : x ≠ 15) (h : exec i s = .next ((s.setFlag f).setV x b))
    (ht : exec i s = .next t) : t.v 15 = f := by
  obtain ⟨u, hu, -, hflag, -⟩ := setsRegAndFlag_of_exec h
  obtain rfl : t = u := Host.Outcome.next.inj (ht.symm.trans hu)
  exact hflag hx

/-- Settles O37: the five instructions write a flag byte or a shifted-out bit, and a completed Dxyn reports a collision. -/
theorem flagIsZeroOrOne : Obligations.FlagIsZeroOrOne := by
  rintro s t x y n i hs (⟨hx, hi⟩ | rfl) h ht
  · simp only [List.mem_cons, List.not_mem_nil, or_false] at hi
    obtain rfl | rfl | rfl | rfl | rfl := hi
    · rw [v15_of_exec hx (exec_addReg x y s) h]; exact flagByte_eq _
    · rw [v15_of_exec hx (exec_subReg x y s) h]; exact flagByte_eq _
    · rw [v15_of_exec hx (exec_subnReg x y s) h]; exact flagByte_eq _
    · rw [v15_of_exec hx (exec_shr x s) h]; exact lowBit_eq _
    · rw [v15_of_exec hx (exec_shl x s) h]; exact highBit_eq _
  · exact (drawsSprite_of_exec h ht).flag

end Sys2Proof.Machine
end

section
/-! The instructions that move bytes between registers and memory (R163 to R165, R70), the host's `load` (R232), and that
canonical memories are told apart by their reads. -/
namespace Sys2Proof.Machine

open Sys2Proof.Claims

variable {s t u v : State} {x : Reg}

/-! ### Fx33, Fx55 and Fx65, completed or raising -/

/-- Fx33 with its three addresses in memory (R163). -/
theorem exec_ldBcd_ok (h : s.I.toNat + 2 < 4096) :
    exec (.ldBcd x) s = .next { s with mem := s.mem.writeList s.I.toNat (bcdDigits (s.v x)) } := by
  obtain ⟨t, ht⟩ := exists_exec_next (.ldBcd x) s
  obtain ⟨-, rfl⟩ | ⟨hI, -⟩ := execLdBcd_cases ht
  · exact ht
  · omega

theorem exec_ldBcd_raises (h : 4096 ≤ s.I.toNat + 2) :
    Raises (.ldBcd x) s (.memoryOutOfBounds .write (max s.I.toNat 4096)) := by
  obtain ⟨t, ht⟩ := exists_exec_next (.ldBcd x) s
  obtain ⟨hI, -⟩ | ⟨-, rfl⟩ := execLdBcd_cases ht
  · omega
  · exact raises_of_takeFault ht

/-- Fx55 of no register, or with all its addresses in memory (R164, R166). -/
theorem exec_storeRegs_ok (h : x.val = 0 ∨ s.I.toNat + x.val ≤ 4096) :
    exec (.storeRegs x) s = .next { s with mem := s.mem.writeList s.I.toNat (s.firstRegs x.val) } := by
  obtain ⟨t, ht⟩ := exists_exec_next (.storeRegs x) s
  obtain ⟨-, rfl⟩ | ⟨hx, hI, -⟩ := execStoreRegs_cases ht
  · exact ht
  · omega

theorem exec_storeRegs_raises (hx : x.val ≠ 0) (h : 4096 < s.I.toNat + x.val) :
    Raises (.storeRegs x) s (.memoryOutOfBounds .write (max s.I.toNat 4096)) := by
  obtain ⟨t, ht⟩ := exists_exec_next (.storeRegs x) s
  obtain ⟨hI, -⟩ | ⟨-, -, rfl⟩ := execStoreRegs_cases ht
  · omega
  · exact raises_of_takeFault ht

/-- Fx65 of no register, or with all its addresses in memory (R165, R166). -/
theorem exec_loadRegs_ok (h : x.val = 0 ∨ s.I.toNat + x.val ≤ 4096) : ∃ t, exec (.loadRegs x) s = .next t ∧
    t = { s with V := t.V } ∧ ∀ r : Reg, t.v r = if r < x then s.mem.read (s.I.toNat + r.val) else s.v r := by
  obtain ⟨t, ht⟩ := exists_exec_next (.loadRegs x) s
  obtain ⟨-, hframe, hv⟩ | ⟨hx, hI, -⟩ := execLoadRegs_cases ht
  · exact ⟨t, ht, hframe, hv⟩
  · omega

theorem exec_loadRegs_raises (hx : x.val ≠ 0) (h : 4096 < s.I.toNat + x.val) :
    Raises (.loadRegs x) s (.memoryOutOfBounds .read (max s.I.toNat 4096)) := by
  obtain ⟨t, ht⟩ := exists_exec_next (.loadRegs x) s
  obtain ⟨hI, -⟩ | ⟨-, -, rfl⟩ := execLoadRegs_cases ht
  · omega
  · exact raises_of_takeFault ht

/-- The first address past memory, as the claims write it (R62). -/
theorem firstPastMemory (a : Nat) : max a 4096 = if a < 4096 then 4096 else a := by split <;> omega

/-- Settles O40: the three digits are the three bytes of the list written at I. -/
theorem bcdStoresThreeDigits : Obligations.BcdStoresThreeDigits := by
  intro s x hm
  refine ⟨fun h => ?ok, fun h => firstPastMemory _ ▸ exec_ldBcd_raises h⟩
  have hlen : s.I.toNat + (bcdDigits (s.v x)).length ≤ 4096 := h
  have hv := (s.v x).isLt
  have hread (k : Nat) (hk : k < 3) := Memory.read_writeList_at hm hlen (k := k) hk
  refine ⟨_, exec_ldBcd_ok h, ?hundreds, ?tens, ?ones, fun a ha => Memory.read_writeList_out _ ha,
    Memory.wf_writeList hm hlen, rfl⟩
  case hundreds => exact (congrArg BitVec.toNat (hread 0 (by decide))).trans (by simp [bcdDigits]; omega)
  case tens => exact (congrArg BitVec.toNat (hread 1 (by decide))).trans (by simp [bcdDigits]; omega)
  case ones => exact (congrArg BitVec.toNat (hread 2 (by decide))).trans (by simp [bcdDigits]; omega)

/-- Where Fx55 completes, a stored register is read back at its place (R164). -/
theorem State.read_writeList_firstRegs (hm : s.mem.wf = true) (hI : x.val = 0 ∨ s.I.toNat + x.val ≤ 4096) {r : Reg}
    (hr : r < x) : (s.mem.writeList s.I.toNat (s.firstRegs x.val)).read (s.I.toNat + r.val) = s.v r := by
  have hx : x.val ≤ 16 := by omega
  have hlen := s.length_firstRegs hx
  have hr' : r.val < x.val := hr
  rw [Memory.read_writeList_at hm (by omega) (by omega), s.getElem_firstRegs hx]

/-- Settles O41. -/
theorem storeRegistersExclusive : Obligations.StoreRegistersExclusive := by
  intro s x hm
  have hlen := s.length_firstRegs (show x.val ≤ 16 by omega)
  exact ⟨fun h => ⟨_, exec_storeRegs_ok h, fun r hr => State.read_writeList_firstRegs hm h hr,
      fun a ha => Memory.read_writeList_out _ (by rwa [hlen]), State.wf_writeList_firstRegs hm h, rfl⟩,
    fun hx h => firstPastMemory _ ▸ exec_storeRegs_raises hx h⟩

/-- Settles O42. -/
theorem loadRegistersExclusive : Obligations.LoadRegistersExclusive := by
  intro s x
  refine ⟨fun h => ?ok, fun hx h => firstPastMemory _ ▸ exec_loadRegs_raises hx h⟩
  obtain ⟨t, ht, hframe, hv⟩ := exec_loadRegs_ok h
  exact ⟨t, ht, fun r hr => by rw [hv, if_pos hr], fun r hr => by rw [hv, if_neg (not_lt.2 hr)], hframe⟩

/-- Settles O43: the load completes because the store from the same I did, and reads what it stored. -/
theorem storeThenLoadRestoresRegisters : Obligations.StoreThenLoadRestoresRegisters := by
  intro s t u v x hm hs hst ht hmem hI hu huv
  obtain ⟨hfit, rfl⟩ | ⟨-, -, rfl⟩ := execStoreRegs_cases hst
  · rw [← hI] at hfit
    obtain ⟨w, hw, hframe, hv⟩ := exec_loadRegs_ok hfit
    obtain rfl : w = v := Host.Outcome.next.inj (hw.symm.trans huv)
    refine ⟨by rw [hframe, ← hu], fun r => ?_⟩
    rw [hv, hmem, hI]
    split
    next hr => exact State.read_writeList_firstRegs hm (hI ▸ hfit) hr
    · rfl
  · simp at ht

/-- Settles O44: V0 and V1 are the two bytes at I (R64). -/
theorem fetchSeesStoredRegisters : Obligations.FetchSeesStoredRegisters := by
  intro s t x hm hx hI h
  obtain rfl := Host.Outcome.next.inj ((exec_storeRegs_ok (.inr hI)).symm.trans h)
  have h0 : (s.mem.writeList s.I.toNat (s.firstRegs x.val)).read s.I.toNat = s.v 0 :=
    State.read_writeList_firstRegs hm (.inr hI) (r := 0) (Fin.lt_def.2 (by simp; omega))
  have h1 : (s.mem.writeList s.I.toNat (s.firstRegs x.val)).read (s.I.toNat + 1) = s.v 1 :=
    State.read_writeList_firstRegs hm (.inr hI) (r := 1) (Fin.lt_def.2 (by simp; omega))
  refine ⟨_, State.fetch_of_lt _ (by simp; omega), ?_⟩
  simp only [Word.toNat_ofBytes, h0, h1]

/-! ### Canonical memories -/

section Cells

variable {lo a a' c : Nat} {b b' : Byte} {l l' : List Host.Cell}

theorem readCells_head (a : Nat) (b : Byte) (l : List Host.Cell) : readCells a ((a, b) :: l) = b := if_pos rfl

theorem readCells_tail (h : c ≠ a) : readCells c ((a, b) :: l) = readCells c l := if_neg h.symm

/-- Below the head of a canonical list everything is as at reset, and at the head it is not. -/
theorem readCells_below_head (h : cellsWf lo ((a, b) :: l) = true) (hc : c < a) :
    readCells c ((a, b) :: l) = resetByte c :=
  readCells_lt (lo := a) (cellsWf_cons.2 ⟨Nat.le_refl a, (cellsWf_cons.1 h).2⟩) hc

theorem readCells_head_ne (h : cellsWf lo ((a, b) :: l) = true) : readCells a ((a, b) :: l) ≠ resetByte a := by
  rw [readCells_head]
  exact (cellsWf_cons.1 h).2.2.1

/-- Of two canonical lists with the same reads neither head lies below the other. -/
theorem head_le_of_reads (h : cellsWf lo ((a, b) :: l) = true) (h' : cellsWf lo ((a', b') :: l') = true)
    (hread : ∀ c, readCells c ((a, b) :: l) = readCells c ((a', b') :: l')) : a' ≤ a := by
  by_contra hlt
  exact readCells_head_ne h ((hread a).trans (readCells_below_head h' (by omega)))

theorem cells_eq_of_reads (h : cellsWf lo l = true) (h' : cellsWf lo l' = true)
    (hread : ∀ c, readCells c l = readCells c l') : l = l' := by
  induction l generalizing lo l' with
  | nil =>
    cases l' with
    | nil => rfl
    | cons d rest' => exact absurd (hread d.1).symm (readCells_head_ne h')
  | cons d rest ih =>
    obtain ⟨a, b⟩ := d
    cases l' with
    | nil => exact absurd (hread a) (readCells_head_ne h)
    | cons d' rest' =>
      obtain ⟨a', b'⟩ := d'
      obtain rfl : a = a' :=
        Nat.le_antisymm (head_le_of_reads h' h fun c => (hread c).symm) (head_le_of_reads h h' hread)
      obtain rfl : b = b' := by simpa only [readCells_head] using hread a
      obtain ⟨-, -, -, hrest⟩ := cellsWf_cons.1 h
      obtain ⟨-, -, -, hrest'⟩ := cellsWf_cons.1 h'
      rw [ih hrest hrest' fun c => ?_]
      by_cases hc : c = a
      · rw [readCells_lt hrest (by omega), readCells_lt hrest' (by omega)]
      · simpa only [readCells_tail hc] using hread c

end Cells

/-- Settles O45. -/
theorem equalReadsGiveEqualMemories : Obligations.EqualReadsGiveEqualMemories := fun _ _ hm hm' hread =>
  congrArg Memory.mk (cells_eq_of_reads hm hm' hread)

/-! ### The host's load (R232) -/

/-- Settles O56. -/
theorem loadWritesOnlyRomRegion : Obligations.LoadWritesOnlyRomRegion := by
  intro s bytes hm
  refine ⟨fun h => ?tooLarge, fun h => ⟨{ s with mem := s.mem.writeList 0x200 bytes }, ?ok, fun k hk => ?image,
    fun a ha => Memory.read_writeList_out _ ha, Memory.wf_writeList hm (by omega), rfl⟩⟩
  case tooLarge => simp [State.load]; omega
  case ok => simp [State.load, h]
  case image =>
    rw [List.getD_eq_getElem _ _ hk]
    exact Memory.read_writeList_at hm (by omega) hk

end Sys2Proof.Machine
end

section
/-! The call stack (R130, R132) and the keypad instructions (R170 to R172, R174). -/
namespace Sys2Proof.Machine

open Sys2Proof.Claims

variable {s t : State}

/-! ### CALL and RET -/

theorem exec_ret_raises (h : s.sp.val = 0) : Raises .ret s .stackUnderflow := by
  obtain ⟨t, ht⟩ := exists_exec_next .ret s
  obtain ⟨-, rfl⟩ | ⟨hsp, -⟩ := execRet_cases ht
  · exact raises_of_takeFault ht
  · exact absurd h hsp

theorem exec_ret_ok (h : s.sp.val ≠ 0) :
    exec .ret s = .next { s with sp := ⟨s.sp.val - 1, by omega⟩, pc := s.stack[s.sp.val - 1] } := by
  obtain ⟨t, ht⟩ := exists_exec_next .ret s
  obtain ⟨hsp, -⟩ | ⟨_, rfl⟩ := execRet_cases ht
  · exact absurd hsp h
  · exact ht

theorem exec_call_raises {nnn : Nat} (h : s.sp.val = 16) : Raises (.call nnn) s .stackOverflow := by
  obtain ⟨t, ht⟩ := exists_exec_next (.call nnn) s
  obtain ⟨-, rfl⟩ | ⟨hsp, -⟩ := execCall_cases ht
  · exact raises_of_takeFault ht
  · omega

theorem exec_call_ok (nnn : Nat) (h : s.sp.val < 16) : exec (.call nnn) s = .next { s with
    stack := s.stack.set s.sp.val s.pc, sp := ⟨s.sp.val + 1, by omega⟩, pc := BitVec.ofNat 16 nnn } := by
  obtain ⟨t, ht⟩ := exists_exec_next (.call nnn) s
  obtain ⟨hsp, -⟩ | ⟨_, rfl⟩ := execCall_cases ht
  · omega
  · exact ht

/-- Settles O26. -/
theorem retPopsReturnAddress : Obligations.RetPopsReturnAddress := fun s =>
  ⟨exec_ret_raises, fun h => ⟨_, exec_ret_ok h, rfl, by simp [Vector.getD, show s.sp.val - 1 < 16 by omega], rfl⟩⟩

/-- Settles O28. -/
theorem callPushesReturnAddress : Obligations.CallPushesReturnAddress := by
  intro s nnn hnnn
  refine ⟨exec_call_raises, fun h => ?_⟩
  have hsp : s.sp.val < 16 := by omega
  refine ⟨_, exec_call_ok nnn hsp, rfl, ?pc, ?pushed, fun k hk => ?kept, rfl⟩
  case pc => simp; omega
  case pushed => simp [Vector.getD, hsp]
  case kept => by_cases hk16 : k < 16 <;> simp [Vector.getD, hk16, hk.symm]

/-- Settles O29: the entry that RET reads is the one CALL has just written. -/
theorem callThenRetResumes : Obligations.CallThenRetResumes := by
  intro s nnn h
  have hsp : s.sp.val < 16 := by omega
  refine ⟨_, _, exec_call_ok nnn hsp, exec_ret_ok (by simp), ?_⟩
  simp

/-! ### The keypad instructions -/

variable {x : Reg}

theorem exec_skp_ok (h : (s.v x).toNat < 16) : exec (.skp x) s = .next (s.skipIf s.key[(s.v x).toNat]) := by
  obtain ⟨t, ht⟩ := exists_exec_next (.skp x) s
  obtain ⟨_, rfl⟩ | ⟨hk, -⟩ := execSkp_cases ht
  · exact ht
  · omega

theorem exec_sknp_ok (h : (s.v x).toNat < 16) : exec (.sknp x) s = .next (s.skipIf !s.key[(s.v x).toNat]) := by
  obtain ⟨t, ht⟩ := exists_exec_next (.sknp x) s
  obtain ⟨_, rfl⟩ | ⟨hk, -⟩ := execSknp_cases ht
  · exact ht
  · omega

theorem exec_skp_raises (h : 16 ≤ (s.v x).toNat) : Raises (.skp x) s (.keypadIndexOutOfRange (s.v x).toNat) := by
  obtain ⟨t, ht⟩ := exists_exec_next (.skp x) s
  obtain ⟨hk, -⟩ | ⟨-, rfl⟩ := execSkp_cases ht
  · omega
  · exact raises_of_takeFault ht

theorem exec_sknp_raises (h : 16 ≤ (s.v x).toNat) : Raises (.sknp x) s (.keypadIndexOutOfRange (s.v x).toNat) := by
  obtain ⟨t, ht⟩ := exists_exec_next (.sknp x) s
  obtain ⟨hk, -⟩ | ⟨-, rfl⟩ := execSknp_cases ht
  · omega
  · exact raises_of_takeFault ht

/-- Settles O46. -/
theorem keySkipsTestOneKey : Obligations.KeySkipsTestOneKey := by
  intro s x
  refine ⟨fun h => ⟨?skp, ?sknp⟩, fun h => ⟨exec_skp_raises h, exec_sknp_raises h⟩⟩
  case skp => rw [JumpsTo, exec_skp_ok h, State.skipIf_eq]; simp [Vector.getD, h]
  case sknp => rw [JumpsTo, exec_sknp_ok h, State.skipIf_eq]; simp [Vector.getD, h]

theorem exec_ldVxKey_some {k : Fin 16} (h : s.lowestKey = some k) :
    exec (.ldVxKey x) s = .next (s.setV x (BitVec.ofNat 8 k.val)) := by
  simp only [exec, execLdVxKey, h]

theorem exec_ldVxKey_none (h : s.lowestKey = none) : exec (.ldVxKey x) s = .next { s with pc := s.pc - 2 } := by
  simp only [exec, execLdVxKey, h]

/-- Settles O47. -/
theorem keyWaitTakesLowestKeyOrRepeats : Obligations.KeyWaitTakesLowestKeyOrRepeats := by
  intro s x
  refine ⟨fun k hk hlow => ⟨BitVec.ofNat 8 k.val, ?byte, ?set⟩, fun h => exec_ldVxKey_none (State.lowestKey_eq_none.2 h)⟩
  case byte => rw [BitVec.toNat_ofNat]; omega
  case set => exact setsReg_of_exec_setV (exec_ldVxKey_some (State.lowestKey_eq_some.2 ⟨hk, hlow⟩))

end Sys2Proof.Machine
end

section
/-! Runs of several cycles: a waiting Fx0A (R174), the delay timer (R104), and memory that is all zero (R234). -/
namespace Sys2Proof.Machine

open Sys2Proof.Claims

variable {s t : State}

/-! ### Waiting for a key -/

/-- A cycle of Fx0A with no key pressed: pc is back at the instruction, and the timers decay. -/
theorem step_keyWait {w : Word} {x : Reg} (hs : s.fault = none) (hkeys : ∀ k : Fin 16, s.key[k] = false)
    (hw : s.fetch = .ok w) (hd : decodeWord w = .ok (.ldVxKey x)) :
    step s = .next { s with op := w, dt := decayed s.dt, st := decayed s.st } := by
  have hnone : (s.latch w).lowestKey = none := State.lowestKey_eq_none.2 hkeys
  have hpc : (s.latch w).pc - 2 = s.pc := by rw [State.latch_eq]; exact word_add_two_sub_two s.pc
  have hexec := exec_ldVxKey_none (x := x) hnone
  rw [hpc] at hexec
  rw [step_of_exec hs hw hd hexec]
  exact State.finishCycle_of_unfaulted (t := { s.latch w with pc := s.pc }) hs

/-- Settles O48, by induction on the cycles: the next one begins in a state of the same kind. -/
theorem keyWaitStallsAcrossCycles : Obligations.KeyWaitStallsAcrossCycles := by
  intro n
  induction n with
  | zero => exact fun s w x _ _ _ _ => ⟨s, run_zero s, rfl, rfl, rfl⟩
  | succ n ih =>
    intro s w x hs hkeys hw hd
    have hstep := step_keyWait hs hkeys hw hd
    obtain ⟨t, hrun, hdt, hst, hframe⟩ :=
      ih { s with op := w, dt := decayed s.dt, st := decayed s.st } w x hs hkeys hw hd
    simp only [toNat_decayed] at hdt hst
    exact ⟨t, (run_succ_of_next hstep).trans hrun, by omega, by omega, hframe⟩

/-! ### The delay timer -/

/-- A cycle that completes without executing Fx15 takes the delay timer down by 1, not below 0 (R104). -/
theorem step_dt (h : step s = .next t) (ht : t.fault = none)
    (hno : ∀ w x, s.fetch = .ok w → decodeWord w ≠ .ok (.ldDtVx x)) : t.dt.toNat = s.dt.toNat - 1 := by
  cases hw : s.fetch with
  | error f =>
    obtain ⟨hs, -⟩ := step_cases h
    rw [step_of_fetch_error hs hw] at h
    cases h
    simp at ht
  | ok w => exact ((timersDecayOncePerCycle s t w h ht hw).1.2) fun x => hno w x hw

/-- A machine that runs further than one cycle was not faulted after it (R106). -/
theorem fault_none_of_run_succ {u : State} {n : Nat} (h : Sys2Proof.core.run (n + 1) t = .next u) : t.fault = none := by
  obtain ⟨v, hv, -⟩ := run_succ_eq_next.1 h
  exact (step_cases hv).1

/-- Settles O50, by induction on the cycles. -/
theorem delayTimerCountsDown : Obligations.DelayTimerCountsDown := by
  intro n
  induction n with
  | zero =>
    intro s t h _ _
    cases h
    rfl
  | succ n ih =>
    intro s t h ht hno
    obtain ⟨u, hu, hrun⟩ := run_succ_eq_next.1 h
    have huf : u.fault = none := by
      cases n with
      | zero => cases hrun; exact ht
      | succ n => exact fault_none_of_run_succ hrun
    have hdt := step_dt hu huf fun w x => hno 0 s w x (by omega) (run_zero s)
    have hrest := ih u t hrun ht fun k v w x hk hv => hno (k + 1) v w x (by omega) ((run_succ_of_next hu).trans hv)
    omega

/-! ### Zero memory -/

/-- A cycle on two zero bytes runs CLS (R120, R234). -/
theorem step_zeroWord (hs : s.fault = none) (hpc : s.pc.toNat + 1 < 4096) (h0 : s.mem.read s.pc.toNat = 0)
    (h1 : s.mem.read (s.pc.toNat + 1) = 0) : step s = .next (s.latch 0).clearFb.decay := by
  have hw : s.fetch = .ok 0 := by rw [s.fetch_of_lt hpc, h0, h1]; rfl
  rw [step_of_exec hs hw (i := .cls) rfl (exec_cls _)]
  exact State.finishCycle_of_unfaulted (t := (s.latch 0).clearFb) hs

/-- Settles O59. -/
theorem zeroWordClearsScreenAndAdvances : Obligations.ZeroWordClearsScreenAndAdvances := by
  intro s hs hpc h0 h1
  exact ⟨_, step_zeroWord hs hpc h0 h1, fun px py _ _ => (s.latch 0).pixel_clearFb px py, by simp; omega, rfl,
    decayed_eq_lessOne s.dt, decayed_eq_lessOne s.st, rfl⟩

/-- `n` cycles of CLS in a row. -/
theorem run_zeroMemory (n : Nat) (hs : s.fault = none) (hz : ∀ a, s.pc.toNat ≤ a → a < 4096 → s.mem.read a = 0)
    (hpc : s.pc.toNat + 2 * n ≤ 4096) :
    ∃ t, Sys2Proof.core.run n s = .next t ∧ t.pc.toNat = s.pc.toNat + 2 * n ∧ t.dt.toNat = s.dt.toNat - n ∧
      t.st.toNat = s.st.toNat - n ∧ (0 < n → t.op = 0 ∧ ∀ px py, t.pixel px py = false) ∧
      t = { s with fb := t.fb, pc := t.pc, op := t.op, dt := t.dt, st := t.st } := by
  induction n generalizing s with
  | zero => exact ⟨s, run_zero s, rfl, rfl, rfl, by simp, rfl⟩
  | succ n ih =>
    have hstep := step_zeroWord hs (by omega) (hz _ (by omega) (by omega)) (hz _ (by omega) (by omega))
    have hpc' : (s.latch 0).clearFb.decay.pc.toNat = s.pc.toNat + 2 := by simp; omega
    obtain ⟨t, hrun, htpc, hdt, hst, hdark, hframe⟩ := ih (s := (s.latch 0).clearFb.decay) hs
      (fun a ha => hz a (by omega)) (by omega)
    simp only [State.decay_dt, State.clearFb_dt, State.latch_dt, State.decay_st, State.clearFb_st, State.latch_st,
      toNat_decayed] at hdt hst
    refine ⟨t, (run_succ_of_next hstep).trans hrun, by omega, by omega, by omega, fun _ => ?dark, hframe⟩
    cases n with
    | zero =>
      cases hrun
      exact ⟨rfl, fun px py => (s.latch 0).pixel_clearFb px py⟩
    | succ n => exact hdark (by omega)

/-- Settles O60: where the run ends at 4095 or 4096 the first address past memory is 0x1000 (R101). -/
theorem zeroMemoryRunsIntoFetchFault : Obligations.ZeroMemoryRunsIntoFetchFault := by
  intro n s hs hz hpc
  obtain ⟨t, hrun, htpc, hdt, hst, hdark, hframe⟩ := run_zeroMemory n hs hz hpc
  refine ⟨t, hrun, htpc, hdt, hst, fun hn => ⟨(hdark hn).1, fun px py _ _ => (hdark hn).2 px py⟩, hframe, fun hend => ?_⟩
  have ht : t.fault = none := by rw [hframe]; exact hs
  have haddr : (if t.pc.toNat = 4095 then 4096 else t.pc.toNat) = 0x1000 := by split <;> omega
  rw [fetchPastMemoryIsTakenAsFault t ht (by omega), haddr]

end Sys2Proof.Machine
end

section
/-! What no instruction reads: the sound timer (R29), and, but for three instructions, the keypad (R31). A run with other
values there gives the same next state, with those values. -/
namespace Sys2Proof.Machine

/-- The state with another keypad and another sound timer. -/
def State.withInputs (s : State) (keys : Vector Bool 16) (b : Byte) : State := { s with key := keys, st := b }

variable {s t : State} (keys : Vector Bool 16) (b : Byte)

/-! ### The operations keep to the rest of the state -/

theorem State.storeBytes_withInputs (s : State) (a : Nat) (bs : List Byte) :
    (s.withInputs keys b).storeBytes a bs = (s.storeBytes a bs).map (·.withInputs keys b) := by
  rw [State.storeBytes_eq, State.storeBytes_eq]
  split <;> rfl

theorem State.loadBytes_withInputs (s : State) (base count : Nat) :
    (s.withInputs keys b).loadBytes base count = (s.loadBytes base count).map (·.withInputs keys b) := by
  induction count with
  | zero => rfl
  | succ i ih =>
    rw [State.loadBytes, ih, State.loadBytes]
    cases s.loadBytes base i with
    | error f => rfl
    | ok t =>
      by_cases h : base + i < 4096
      · simp only [Except.map, except_bind_ok, State.memRead_eq, if_pos h]; rfl
      · simp only [Except.map, except_bind_ok, State.memRead_eq, if_neg h]; rfl

theorem State.toggle_withInputs (s : State) (px py : Nat) :
    (s.withInputs keys b).toggle px py = (s.toggle px py).withInputs keys b := by
  have hpixel : (s.withInputs keys b).pixel px py = s.pixel px py := rfl
  unfold State.toggle
  rw [hpixel]
  split <;> rfl

theorem State.drawCols_withInputs (s : State) (c : Byte) (px0 py cols : Nat) :
    (s.withInputs keys b).drawCols drawEdge c px0 py cols =
      (s.drawCols drawEdge c px0 py cols).map (·.withInputs keys b) := by
  induction cols with
  | zero => rfl
  | succ col ih =>
    rw [State.drawCols, ih, State.drawCols]
    cases s.drawCols drawEdge c px0 py col with
    | error f => rfl
    | ok t =>
      simp only [Except.map, except_bind_ok, State.plot_eq, State.toggle_withInputs]
      split
      · split <;> rfl
      · rfl

theorem State.drawRows_withInputs (s : State) (base px0 py0 rows : Nat) :
    (s.withInputs keys b).drawRows drawEdge base px0 py0 rows =
      (s.drawRows drawEdge base px0 py0 rows).map (·.withInputs keys b) := by
  induction rows with
  | zero => rfl
  | succ row ih =>
    rw [State.drawRows, ih, State.drawRows]
    cases s.drawRows drawEdge base px0 py0 row with
    | error f => rfl
    | ok t =>
      by_cases h : base + row < 4096
      · simp only [Except.map, except_bind_ok, State.memRead_eq, if_pos h]
        exact State.drawCols_withInputs keys b t _ _ _ _
      · simp only [Except.map, except_bind_ok, State.memRead_eq, if_neg h]
        rfl

theorem State.skipIf_withInputs (s : State) (c : Bool) :
    (s.withInputs keys b).skipIf c = (s.skipIf c).withInputs keys b := by cases c <;> rfl

/-- A skip on a key that has been read. -/
theorem bind_skipIf_withInputs (s : State) (r : Except Fault Bool) (g : Bool → Bool) :
    (r.bind fun k => .ok ((s.withInputs keys b).skipIf (g k))) =
      (r.bind fun k => .ok (s.skipIf (g k))).map (·.withInputs keys b) := by
  cases r with
  | error f => rfl
  | ok k => exact congrArg Except.ok (s.skipIf_withInputs keys b (g k))

theorem State.pop_withInputs (s : State) :
    (s.withInputs keys b).pop = s.pop.map fun r => (r.1, r.2.withInputs keys b) := by
  unfold State.pop
  by_cases hsp : s.sp.val = 0
  · rw [dif_pos hsp, dif_pos (show (s.withInputs keys b).sp.val = 0 from hsp)]; rfl
  · rw [dif_neg hsp, dif_neg (show (s.withInputs keys b).sp.val ≠ 0 from hsp)]; rfl

theorem State.push_withInputs (s : State) (w : Word) :
    (s.withInputs keys b).push w = (s.push w).map (·.withInputs keys b) := by
  unfold State.push
  by_cases hsp : s.sp.val < 16
  · rw [dif_pos hsp, dif_pos (show (s.withInputs keys b).sp.val < 16 from hsp)]; rfl
  · rw [dif_neg hsp, dif_neg (show ¬ (s.withInputs keys b).sp.val < 16 from hsp)]; rfl

/-- An instruction whose computation keeps to the rest of the state ends the same, completed or with its fault taken. -/
theorem State.finish_withInputs {r r' : Except Fault State} (hr : r' = r.map (·.withInputs keys b))
    (h : s.finish r = .next t) : (s.withInputs keys b).finish r' = .next (t.withInputs keys b) := by
  subst hr
  obtain rfl | ⟨f, rfl, rfl⟩ := State.finish_eq_next.1 h <;> rfl

/-! ### Every instruction -/

/-- The instructions that read the keypad (R171, R172, R174). -/
def ReadsKeys (i : Instr) : Prop := ∃ x, i = .skp x ∨ i = .sknp x ∨ i = .ldVxKey x

/-- With another keypad, where the instruction does not read it, and another sound timer, where it does not write it, an
instruction gives the same next state. -/
theorem exec_withInputs {i : Instr} (hkeys : ReadsKeys i → keys = s.key) (hst : ∀ x, i ≠ .ldStVx x)
    (h : exec i s = .next t) : exec i (s.withInputs keys b) = .next (t.withInputs keys b) := by
  cases i
  case ldStVx x => exact absurd rfl (hst x)
  case ret =>
    refine State.finish_withInputs keys b ?_ h
    rw [State.pop_withInputs]
    cases s.pop <;> rfl
  case call nnn =>
    refine State.finish_withInputs keys b ?_ h
    rw [State.push_withInputs]
    change ((s.push s.pc).map _).bind _ = _
    cases s.push s.pc <;> rfl
  case drw x y n =>
    exact State.finish_withInputs keys b (State.drawRows_withInputs keys b (s.setFlag 0) _ _ _ n) h
  case ldBcd x | storeRegs x => exact State.finish_withInputs keys b (State.storeBytes_withInputs keys b s _ _) h
  case loadRegs x => exact State.finish_withInputs keys b (State.loadBytes_withInputs keys b s _ _) h
  case skp x =>
    obtain rfl := hkeys ⟨x, .inl rfl⟩
    exact State.finish_withInputs s.key b (bind_skipIf_withInputs s.key b s (s.keyRead (s.v x).toNat) id) h
  case sknp x =>
    obtain rfl := hkeys ⟨x, .inr (.inl rfl)⟩
    exact State.finish_withInputs s.key b (bind_skipIf_withInputs s.key b s (s.keyRead (s.v x).toNat) not) h
  case ldVxKey x =>
    obtain rfl := hkeys ⟨x, .inr (.inr rfl)⟩
    obtain ⟨k, hk, rfl⟩ | ⟨hk, rfl⟩ := execLdVxKey_cases h
    · exact exec_ldVxKey_some (s := s.withInputs s.key b) hk
    · exact exec_ldVxKey_none (s := s.withInputs s.key b) hk
  case seImm | sneImm | seReg | sneReg =>
    cases h
    exact congrArg Host.Outcome.next (s.skipIf_withInputs keys b _)
  all_goals
    cases h
    rfl

/-! ### The two inputs -/

/-- An instruction keeps the keypad, completed or with its fault taken (R31). -/
theorem exec_key {i : Instr} (h : exec i s = .next t) : t.key = s.key := by
  obtain hc | ⟨f, -, rfl⟩ := exec_cases h
  · exact hc.key
  · rfl

/-- Settles O55: LD ST, Vx overwrites ST, and every other instruction keeps the keypad and what ST holds. -/
theorem noInstructionReadsSoundTimer : Obligations.NoInstructionReadsSoundTimer := by
  intro i s t b h
  refine ⟨fun hst => ?_, ?_⟩
  · have hinputs : t.withInputs s.key b = { t with st := b } := by rw [← exec_key h]; rfl
    exact hinputs ▸ exec_withInputs s.key b (fun _ => rfl) hst h
  · rintro x rfl
    cases h
    rfl

/-- No cycle writes the keypad (R31). -/
theorem step_key (h : step s = .next t) : t.key = s.key := by
  obtain ⟨-, ⟨f, -, rfl⟩ | ⟨w, -, ⟨m, -, rfl⟩ | ⟨i, u, -, he, ⟨r, -, rfl⟩ | ⟨-, rfl⟩⟩⟩⟩ := step_cases h
  · rfl
  · rfl
  · rfl
  · exact exec_key (s := s.latch w) (t := u) he

/-- With another keypad an instruction that does not read it gives the same next state; where it writes ST, what it writes
is a register's value. -/
theorem exec_withKeys {i : Instr} (hkeys : ¬ ReadsKeys i) (h : exec i s = .next t) :
    exec i { s with key := keys } = .next { t with key := keys } := by
  by_cases hi : ∃ x, i = .ldStVx x
  · obtain ⟨x, rfl⟩ := hi
    cases h
    rfl
  · have hst : t.st = s.st := by
      obtain ⟨x, -, rfl⟩ | ⟨x, hx, -⟩ | ⟨-, -, -, hst⟩ := exec_timers h
      · rfl
      · exact absurd ⟨x, hx⟩ hi
      · exact hst
    have hinputs : t.withInputs keys s.st = { t with key := keys } := by rw [← hst]; rfl
    exact hinputs ▸ exec_withInputs keys s.st (fun hr => absurd hr hkeys) (fun x hx => hi ⟨x, hx⟩) h

/-- Settles O54. -/
theorem keypadIsHostWrittenInput : Obligations.KeypadIsHostWrittenInput := by
  refine ⟨fun s t h => step_key h, fun s k b => ⟨by simp, fun j hj => ?other, rfl⟩,
    fun i s t keys hskp hsknp hwait h => exec_withKeys keys ?reads h⟩
  case other =>
    have hval : k.val ≠ j.val := fun e => hj (Fin.ext e.symm)
    simp [hval]
  case reads =>
    rintro ⟨x, rfl | rfl | rfl⟩
    · exact hskp x rfl
    · exact hsknp x rfl
    · exact hwait x rfl

end Sys2Proof.Machine
end
